-- ==== Sys2Proof/Word.lean ====
section
/-! DEFINITION. The value types of SFS: a byte (R12), a 32-bit word (R12), a message element with its kind
(R26, R151), a message (R26) and the element record of the ports (R75). -/

namespace Sys2Proof

/-- A byte: 8 bits (R10, R12). -/
abbrev Byte := BitVec 8

/-- A payload word: 32 bits (R12, R26). -/
abbrev Word := BitVec 32

/-- The four kinds of element (R10, R151). -/
inductive Kind
  | code
  | f32
  | u32
  | i32
deriving DecidableEq, Repr

/-- MessageElement (R26): a code, held as its byte (R25), or a numeric variant, held as its 32-bit pattern
(R66 to R68). -/
inductive Element
  | code (c : Byte)
  | f32 (w : Word)
  | u32 (w : Word)
  | i32 (w : Word)
deriving DecidableEq, Repr

/-- Message (R26): an ordered, finite sequence of elements, possibly empty. -/
abbrev Message := List Element

/-- The 34-bit element record of the ports (R75). -/
structure Record where
  kind : BitVec 2
  data : Word
deriving DecidableEq, Repr

end Sys2Proof
end

