-- ==== Sys2Proof/Config.lean ====
section
/-! DEFINITION. The configuration of SFS (R8), when it is valid (R9, R204), and the test configurations T0 and T0s
(R11). Every field is a parameter of the spec: State carries a valid configuration, hardwired (R27), and no
definition of the model fixes a value of one, State.reset apart (notes/assumptions/1.md). Beside it stands the model's
one free value. -/

namespace Sys2Proof

/-- The fields of a configuration, R8. `defined` has one bit per byte value (R27, R40); `names` is the map NAME. -/
structure CfgData where
  ceiling : Nat
  bStart  : Byte
  bEnd    : Byte
  bFloat  : Byte
  bUint   : Byte
  bInt    : Byte
  bNone   : Byte
  defined : BitVec 256
  names   : List (String × Byte)
deriving DecidableEq, Repr

/-- Membership of DEF: the byte's "defined" bit in the code-table ROM (R40). -/
def CfgData.isDef (d : CfgData) (b : Byte) : Bool := d.defined.getLsbD b.toNat

/-- The six distinguished bytes of R9. -/
def CfgData.distinguished (d : CfgData) : List Byte :=
  [d.bStart, d.bEnd, d.bFloat, d.bUint, d.bInt, d.bNone]

/-- R9 and R204: `CEILING >= 3`, the six distinguished bytes pairwise distinct and in DEF, NAME an injective map
from names to DEF. -/
def CfgData.valid (d : CfgData) : Bool :=
  decide (3 ≤ d.ceiling) && decide d.distinguished.Nodup && d.distinguished.all d.isDef
    && decide (d.names.map Prod.fst).Nodup && decide (d.names.map Prod.snd).Nodup
    && (d.names.map Prod.snd).all d.isDef

/-- A valid configuration: the data with the proof of its validity, so that no state of the model holds an invalid
one (R204: "makes the configuration a subtype carrying their proofs"). -/
structure Cfg extends CfgData where
  ok : toCfgData.valid = true
deriving DecidableEq, Repr

/-- The set of bytes of a list, as DEF's 256 bits. -/
def CfgData.bitsOf (bs : List Byte) : BitVec 256 :=
  bs.foldl (fun m b => m ||| BitVec.ofNat 256 (2 ^ b.toNat)) 0

/-- A free value: whether a null beat that is not the whole of an empty sequence ends its sequence. R78 gives such a
beat no meaning, so nothing constrains the answer (notes/assumptions/8.md). `before` holds the values taken on that
stream before it. -/
opaque Config.strayNullEnds (op : BitVec 2) (streamB last : Bool) (before : List Record) : Bool

/-- T0 of R11 with a ceiling to choose: the spec's own invention, for examples only. -/
def CfgData.t0 (ceiling : Nat) : CfgData where
  ceiling := ceiling
  bStart := 0xF0
  bEnd := 0xF1
  bFloat := 0xF2
  bUint := 0xF3
  bInt := 0xF4
  bNone := 0xFF
  defined := CfgData.bitsOf [0xF0, 0xF1, 0xF2, 0xF3, 0xF4, 0xFF, 0x10, 0x11, 0x12, 0x20, 0x30, 0x31]
  names := [("MSG_START", 0xF0), ("MSG_END", 0xF1), ("FLOAT_AHEAD", 0xF2), ("UINT_AHEAD", 0xF3),
    ("INT_AHEAD", 0xF4), ("NONE", 0xFF), ("SET", 0x10), ("GET", 0x11), ("ALL", 0x12), ("PID", 0x20),
    ("SEM_A", 0x30), ("SEM_B", 0x31)]

/-- T0: the reference ceiling 2000 (R8, R11). -/
def Cfg.t0 : Cfg := ⟨CfgData.t0 2000, by decide⟩

/-- T0s: T0 with `CEILING = 16` (R11). -/
def Cfg.t0s : Cfg := ⟨CfgData.t0 16, by decide⟩

end Sys2Proof
end

