-- ==== Sys2Proof/Machine/Operands.lean ====
section
/-! DEFINITION. Every operand form of SFS: the code table's lookups (R29, R30), the kind of an element (R151) and
whether it is well typed (R134), the little-endian payload assembly (R43, R65), the element record of the ports
(R75), and the reads of a byte sequence (R13, R14). -/

namespace Sys2Proof

/-- `code_of` (R29): total, `B_NONE` for a byte outside DEF. -/
def Cfg.codeOf (c : Cfg) (b : Byte) : Byte := if c.isDef b then b else c.bNone

/-- `byte_of` (R30): the identity, a code being identified with its byte (R25). -/
def Cfg.byteOf (_ : Cfg) (code : Byte) : Byte := code

/-- `is_tag` (R30). -/
def Cfg.isTag (c : Cfg) (b : Byte) : Bool := b == c.bFloat || b == c.bUint || b == c.bInt

/-- `is_structural` (R30): exactly five codes (R28). -/
def Cfg.isStructural (c : Cfg) (b : Byte) : Bool := b == c.bStart || b == c.bEnd || c.isTag b

/-- `kind` (R151). -/
def Element.kind : Element → Kind
  | .code _ => .code
  | .f32 _ => .f32
  | .u32 _ => .u32
  | .i32 _ => .i32

/-- R25, R134: a `Code` element holds a byte of DEF; a numeric element any word. -/
def Element.wellTyped (c : Cfg) : Element → Bool
  | .code b => c.isDef b
  | .f32 _ => true
  | .u32 _ => true
  | .i32 _ => true

/-- R65, decoding: `w = {span[i+4], span[i+3], span[i+2], span[i+1]}`. -/
def wordOfBytes (b1 b2 b3 b4 : Byte) : Word := b4 ++ b3 ++ b2 ++ b1

/-- R65, encoding: `w[7:0]`, `w[15:8]`, `w[23:16]`, `w[31:24]`, in that order. -/
def bytesOfWord (w : Word) : List Byte :=
  [w.extractLsb' 0 8, w.extractLsb' 8 8, w.extractLsb' 16 8, w.extractLsb' 24 8]

/-- The byte a record carries: `data[7:0]`, its kind ignored (R75). -/
def Record.byte (r : Record) : Byte := r.data.extractLsb' 0 8

/-- The element a record stands for; `data[31:8]` of a code record is ignored on inputs (R75). -/
def Record.element (r : Record) : Element :=
  if r.kind = 0 then .code r.byte
  else if r.kind = 1 then .f32 r.data
  else if r.kind = 2 then .u32 r.data
  else .i32 r.data

/-- A byte as a record on an output: kind `0b00`, `data[31:8]` zero (R75). -/
def byteRecord (b : Byte) : Record := ⟨0, b.setWidth 32⟩

/-- The record of an element on an output (R75). -/
def Element.record : Element → Record
  | .code b => byteRecord b
  | .f32 w => ⟨1, w⟩
  | .u32 w => ⟨2, w⟩
  | .i32 w => ⟨3, w⟩

/-- R67: the word read as an unsigned integer. No command reads it. -/
def unsignedValue (w : Word) : Nat := w.toNat

/-- R68: the word read as a signed integer, two's complement. No command reads it. -/
def signedValue (w : Word) : Int := if w.toNat < 2 ^ 31 then (w.toNat : Int) else (w.toNat : Int) - 2 ^ 32

/-- `s[i..j]` (R13): the elements of indices `i` up to but excluding `j`. -/
def slice {α : Type} (s : List α) (i j : Nat) : List α := (s.take j).drop i

/-- `first(s, b, from)` (R13): the least index `k >= from` with `s[k] = b`. -/
def first (s : List Byte) (b : Byte) (start : Nat) : Option Nat :=
  ((s.drop start).findIdx? (· == b)).map (· + start)

/-- `MemRead(addr, n)` (R14): `n` bytes from position `addr`, little-endian; none where they are not all there. -/
def memRead (s : List Byte) (addr n : Nat) : Option Nat :=
  if addr + n ≤ s.length then
    some ((slice s addr (addr + n)).foldr (fun b acc => b.toNat + 256 * acc) 0)
  else none

end Sys2Proof
end

