-- ==== Sys2Proof/Syntax.lean ====
section
/-! DEFINITION. The instructions of SFS: one constructor per row of spec/opcode_table.json. Commands carry their
operand sequences (R76), items their payload (R62), records theirs (R75). -/

namespace Sys2Proof

/-- One constructor per row of spec/opcode_table.json, in the table's order. -/
inductive Instr
  /-- FEED (R90 to R92): the host's chunk of received bytes. -/
  | feed (chunk : List Byte)
  /-- TRY_DECODE (R93 to R96). -/
  | tryDecode
  /-- ENCODE (R130, R131): the element sequence to frame. -/
  | encode (els : Message)
  /-- MATCH (R150, R152): the candidate and the template. -/
  | matchMsgs (candidate template : Message)
  /-- START: the start delimiter met by the first scan of TRY_DECODE (R93, R99). -/
  | startDelim
  /-- END: the end delimiter met by the second scan of TRY_DECODE (R94, R95). -/
  | endDelim
  /-- F32.ITEM: a float item at an item head (R124), with the word it carries (R65). -/
  | f32Item (w : Word)
  /-- U32.ITEM (R128). -/
  | u32Item (w : Word)
  /-- I32.ITEM (R129). -/
  | i32Item (w : Word)
  /-- TRUNC.ITEM (R125): a tag with fewer than 4 bytes after it, and those bytes. -/
  | truncItem (tag : Byte) (rest : List Byte)
  /-- CODE.ITEM (R123). -/
  | codeItem (b : Byte)
  /-- UNKNOWN.BYTE (R122). -/
  | unknownByte (b : Byte)
  /-- ENC.CODE: one `Code` element of ENCODE's operand (R132). -/
  | encCode (c : Byte)
  /-- ENC.F32 (R137). -/
  | encF32 (w : Word)
  /-- ENC.U32 (R138). -/
  | encU32 (w : Word)
  /-- ENC.I32 (R139). -/
  | encI32 (w : Word)
  /-- poll, the abbreviation `feed <bytes> ; try` (R81). -/
  | poll (chunk : List Byte)
  /-- drain, the abbreviation "`try` repeated until it answers `None`" (R81). -/
  | drain
deriving DecidableEq, Repr

end Sys2Proof
end

