-- ==== Sys2Proof/WellFormed.lean ====
section
/-! DEFINITION. When an instruction is well formed under a configuration: the checks the spec puts on its operands.
An instruction read by the decoder in its own context meets them, but for a `Code` operand outside DEF (R134). -/

namespace Sys2Proof

/-- The operands the spec gives each instruction. ENCODE and ENC.CODE take well-typed elements (R134); MATCH reads
kinds alone and takes any (R151, R152; notes/assumptions/4.md); the item rows have the head byte of their row in R69. -/
def Instr.wf (c : Cfg) : Instr → Bool
  | .feed _ => true
  | .tryDecode => true
  | .encode els => els.all (Element.wellTyped c)
  | .matchMsgs _ _ => true
  | .startDelim => true
  | .endDelim => true
  | .f32Item _ => true
  | .u32Item _ => true
  | .i32Item _ => true
  | .truncItem tag rest => c.isTag tag && decide (rest.length < 4)
  | .codeItem b => c.isDef b && !c.isTag b
  | .unknownByte b => !c.isDef b
  | .encCode b => c.isDef b
  | .encF32 _ => true
  | .encU32 _ => true
  | .encI32 _ => true
  | .poll _ => true
  | .drain => true

end Sys2Proof
end

