-- ==== Sys2Proof/Decode.lean ====
section
/-! DEFINITION. The decoder and, after it, the encoder. SFS reads one bit pattern as different instructions in
different contexts (R64): a 2-bit opcode with operand streams on the command port (R76), a byte under one of the two
sentinel scans (R93, R94), the rest of a span at an item head (R69), an element record of ENCODE's operand (R75), and
the two script abbreviations (R81). A `Fetched` is what is read together with the context it is read in; `decode` is
total on it and rejects by name. -/

namespace Sys2Proof

/-- What SFS reads an instruction from, with the context that decides its meaning (R64, R76). -/
inductive Fetched
  /-- The command port: `cmd_op` and the sequences of streams A and B (R76, R78). -/
  | command (op : BitVec 2) (a b : List Record)
  /-- The script line `poll <bytes>` (R81). -/
  | poll (chunk : List Byte)
  /-- The script line `drain` (R81). -/
  | drain
  /-- Backlog context, first scan: the byte at the scan position (R93). -/
  | startScan (b : Byte)
  /-- Backlog context, second scan: the byte at the scan position (R94). -/
  | endScan (b : Byte)
  /-- Item-head context: the span from the cursor on (R69). -/
  | itemHead (span : List Byte)
  /-- One element record of ENCODE's operand (R75). -/
  | record (r : Record)
deriving DecidableEq, Repr

/-- Why a fetched pattern is no instruction. No byte is illegal (R72): a byte under a scan may only be no delimiter,
and a span may be used up. -/
inductive Reject
  | notStartDelimiter
  | notEndDelimiter
  | spanUsedUp
deriving DecidableEq, Repr

/-- The numeric item of a tag (R62, R69). -/
def numericItem (c : Cfg) (tag : Byte) (w : Word) : Instr :=
  if tag = c.bFloat then .f32Item w
  else if tag = c.bUint then .u32Item w
  else .i32Item w

/-- Item-head classification (R69), in the order of R178: lookup with the `NONE` default first, then the tag test,
then the test `r >= 4`. -/
def decodeItem (c : Cfg) : List Byte → Except Reject Instr
  | [] => .error .spanUsedUp
  | b :: rest =>
    if c.isTag (c.codeOf b) then
      match rest with
      | b1 :: b2 :: b3 :: b4 :: _ => .ok (numericItem c (c.codeOf b) (wordOfBytes b1 b2 b3 b4))
      | short => .ok (.truncItem b short)
    else if c.isDef b then .ok (.codeItem b)
    else .ok (.unknownByte b)

/-- The command of an opcode (R76): all four values are used. FEED takes the bytes of stream A whatever their kind
(R75); TRY_DECODE takes no operand; only MATCH takes stream B. -/
def decodeCommand (op : BitVec 2) (a b : List Record) : Instr :=
  if op = 0 then .feed (a.map Record.byte)
  else if op = 1 then .tryDecode
  else if op = 2 then .encode (a.map Record.element)
  else .matchMsgs (a.map Record.element) (b.map Record.element)

/-- One element of ENCODE's operand, by the kind of its record (R75). -/
def decodeRecord (r : Record) : Instr :=
  match r.element with
  | .code c => .encCode c
  | .f32 w => .encF32 w
  | .u32 w => .encU32 w
  | .i32 w => .encI32 w

/-- The decoder: total, by context (R64). -/
def decode (c : Cfg) : Fetched → Except Reject Instr
  | .command op a b => .ok (decodeCommand op a b)
  | .poll chunk => .ok (.poll chunk)
  | .drain => .ok .drain
  | .startScan b => if b = c.bStart then .ok .startDelim else .error .notStartDelimiter
  | .endScan b => if b = c.bEnd then .ok .endDelim else .error .notEndDelimiter
  | .itemHead span => decodeItem c span
  | .record r => .ok (decodeRecord r)

/-- How many span bytes an item consumes (R69, R71); 0 for an instruction that is no item. -/
def Instr.itemLength : Instr → Nat
  | .feed _ => 0
  | .tryDecode => 0
  | .encode _ => 0
  | .matchMsgs _ _ => 0
  | .startDelim => 0
  | .endDelim => 0
  | .f32Item _ => 5
  | .u32Item _ => 5
  | .i32Item _ => 5
  | .truncItem _ rest => 1 + rest.length
  | .codeItem _ => 1
  | .unknownByte _ => 1
  | .encCode _ => 0
  | .encF32 _ => 0
  | .encU32 _ => 0
  | .encI32 _ => 0
  | .poll _ => 0
  | .drain => 0

/-! ### The encoder -/

/-- The words of an instruction, from the spec's encodings: R60 and R62 for delimiters and items, R75 for records,
R76 for commands, R81 for the abbreviations. -/
def encode (c : Cfg) : Instr → Fetched
  | .feed chunk => .command 0 (chunk.map byteRecord) []
  | .tryDecode => .command 1 [] []
  | .encode els => .command 2 (els.map Element.record) []
  | .matchMsgs candidate template => .command 3 (candidate.map Element.record) (template.map Element.record)
  | .startDelim => .startScan c.bStart
  | .endDelim => .endScan c.bEnd
  | .f32Item w => .itemHead (c.bFloat :: bytesOfWord w)
  | .u32Item w => .itemHead (c.bUint :: bytesOfWord w)
  | .i32Item w => .itemHead (c.bInt :: bytesOfWord w)
  | .truncItem tag rest => .itemHead (tag :: rest)
  | .codeItem b => .itemHead [b]
  | .unknownByte b => .itemHead [b]
  | .encCode code => .record (Element.code code).record
  | .encF32 w => .record (Element.f32 w).record
  | .encU32 w => .record (Element.u32 w).record
  | .encI32 w => .record (Element.i32 w).record
  | .poll chunk => .poll chunk
  | .drain => .drain

/-! ### The opcode table's numbering -/

/-- A word of the opcode table as SFS reads it (notes/assumptions/3.md). A row of at most one byte is an opcode of the
command port where it is one of the four (R76), with empty operand streams; any other byte is read on the wire, in the
context that tells most: a delimiter under its own scan (R93, R94), the rest at an item head with bytes of zero after
it (R69). A wider row is an element record, `kind` in bits 33..32 and `data` in bits 31..0 (R75). -/
def fetchedOfTableWord (c : Cfg) (nbits w : Nat) : Fetched :=
  if nbits ≤ 8 then
    if w < 4 then .command (BitVec.ofNat 2 w) [] []
    else if BitVec.ofNat 8 w = c.bStart then .startScan (BitVec.ofNat 8 w)
    else if BitVec.ofNat 8 w = c.bEnd then .endScan (BitVec.ofNat 8 w)
    else .itemHead [BitVec.ofNat 8 w, 0, 0, 0, 0]
  else .record ⟨BitVec.ofNat 2 (w / 2 ^ 32), BitVec.ofNat 32 w⟩

/-- The instruction the decoder reads from a table word. A command and a record are read without the code table; a
byte of the wire is read with the table's own, T0 (`match_T0`, R11). -/
def decodeTableWord (nbits w : Nat) : Option Instr :=
  match decode Cfg.t0 (fetchedOfTableWord Cfg.t0 nbits w) with
  | .ok i => some i
  | .error _ => none

end Sys2Proof
end

