-- ==== Sys2Proof/Machine/State.lean ====
section
/-! DEFINITION. The state of SFS. Its one piece of architectural state is the backlog (R20). Beside it stand the
hardwired configuration (R27), the transient registers of a command in progress on the ports (R33, R77), and the two
faces of the host interface as plain data: commands issued and answered whole (the transaction level of R7), and pin
values edge by edge with the beats the host has taken (the port level, R74 to R79). -/

namespace Sys2Proof.Machine

/-- A beat on an operand stream (R78): the fields of `a_*` and `b_*` beside the handshake (R79). -/
structure Beat where
  null : Bool
  last : Bool
  kind : BitVec 2
  data : Word
deriving DecidableEq, Repr

/-- A beat on the result stream R (R78). The kind and data of a null beat carry nothing, so it has none here. -/
inductive ResultBeat
  | null
  | value (last : Bool) (r : Record)
deriving DecidableEq, Repr

/-- What the host takes from SFS on a port: the response beat (R77) or a beat of stream R (R78). -/
inductive Taken
  | response (op : BitVec 2) (flag : Bool)
  | result (b : ResultBeat)
deriving DecidableEq, Repr

/-- A command's response (R36). -/
inductive Response
  | done
  | decoded (m : Option Message)
  | bytes (bs : List Byte)
  | verdict (b : Bool)
deriving DecidableEq, Repr

/-- The input ports of R79 at one rising edge of `clk`. -/
structure Pins where
  rst      : Bool
  cmdValid : Bool
  cmdOp    : BitVec 2
  aValid   : Bool
  a        : Beat
  bValid   : Bool
  b        : Beat
  rspReady : Bool
  rReady   : Bool
deriving DecidableEq, Repr

/-- No reset, nothing valid, nothing ready. -/
def Pins.quiet : Pins where
  rst := false
  cmdValid := false
  cmdOp := 0
  aValid := false
  a := ⟨false, false, 0, 0⟩
  bValid := false
  b := ⟨false, false, 0, 0⟩
  rspReady := false
  rReady := false

/-- What the host does at the transaction level: the environment's reset (R200), a command with its operands (R76),
or one of the two script abbreviations (R81). -/
inductive HostAct
  | reset
  | command (op : BitVec 2) (a b : List Record)
  | poll (chunk : List Byte)
  | drain
deriving DecidableEq, Repr

/-- Where a command on the ports has got to (R77). -/
inductive Stage
  /-- No command in progress: `cmd_ready = 1`. -/
  | idle
  /-- The operand streams the command needs are being taken. -/
  | operands
  /-- FEED, its chunk complete: the append or the clear is due (R91, R92). -/
  | append
  /-- TRY_DECODE, first scan (R93). -/
  | scanStart
  /-- TRY_DECODE, second scan (R94). -/
  | scanEnd
  /-- TRY_DECODE, DecodeSpan (R120). -/
  | items
  /-- ENCODE, its operand complete (R131). -/
  | encoding
  /-- MATCH, its operands complete (R152). -/
  | matching
  /-- The response beat is offered: `rsp_valid = 1`. -/
  | respond
  /-- The result stream is offered: `r_valid = 1`. -/
  | result
deriving DecidableEq, Repr

/-- The transient registers: created when a command starts and discarded when it ends (R23, R33). -/
structure Work where
  /-- The opcode of the command in progress, `rsp_op` of its response (R77). -/
  op        : BitVec 2
  /-- The values taken from stream A, and whether its last beat has been. -/
  aBuf      : List Record
  aDone     : Bool
  bBuf      : List Record
  bDone     : Bool
  /-- FEED: the count of bytes received so far in the chunk, saturating (R33, R106). -/
  feedCount : Nat
  /-- FEED: the latch that the chunk has pushed the length to `CEILING` (R33). -/
  feedOver  : Bool
  /-- TRY_DECODE: `s`, `e`, and the cursor of the scans and of the span (R33). -/
  startIdx  : Nat
  endIdx    : Nat
  cursor    : Nat
  /-- TRY_DECODE: the partially built message (R33). -/
  msg       : Message
  /-- ENCODE and MATCH: the position in the operand sequences (R33). -/
  pos       : Nat
  /-- ENCODE: the bytes of the items encoded so far (R131). -/
  outBytes  : List Byte
  /-- The response's flag (R76) and the result beats not yet taken (R78). -/
  rspFlag   : Bool
  rBuf      : List ResultBeat
deriving DecidableEq, Repr

/-- The transient registers at the start of a command and when none is in progress (R33). -/
def Work.init : Work where
  op := 0
  aBuf := []
  aDone := false
  bBuf := []
  bDone := false
  feedCount := 0
  feedOver := false
  startIdx := 0
  endIdx := 0
  cursor := 0
  msg := []
  pos := 0
  outBytes := []
  rspFlag := false
  rBuf := []

/-- The machine and the two faces of its host. -/
structure State where
  /-- The configuration, hardwired (R27): no step writes it. -/
  cfg    : Cfg
  /-- The backlog BL, oldest byte first (R20). -/
  bl     : List Byte
  /-- Port level: where the command in progress has got to. -/
  stage  : Stage
  /-- Port level: its transient registers (R33). -/
  work   : Work
  /-- The host, transaction level: what it will do, in order (R205). -/
  script : List HostAct
  /-- The host, port level: the pin values of the coming rising edges, in order; quiet after them. -/
  edges  : List Pins
  /-- The host, transaction level: the responses it has been given, oldest first. -/
  sent   : List Response
  /-- The host, port level: the beats it has taken, oldest first. -/
  taken  : List Taken
deriving DecidableEq, Repr

/-- The synchronisation phase (R35): computed from the backlog, never stored. -/
inductive SyncPhase
  | hunting
  | inFrame
  | frameReady
deriving DecidableEq, Repr

/-- The output ports of R79. A response or a result beat is there exactly while its `valid` is 1. -/
structure Outputs where
  cmdReady : Bool
  aReady   : Bool
  bReady   : Bool
  rsp      : Option (BitVec 2 × Bool)
  r        : Option ResultBeat
deriving DecidableEq, Repr

/-- SFS has no fault outcome (R170): no reason to stop with one. -/
inductive Fault
deriving DecidableEq, Repr

/-- Why the model gives a step no meaning. -/
inductive Refusal
  /-- An instruction without a meaning: raised by no arm. Safe. -/
  | notModelled (mnemonic : String)
  /-- ENCODE and ENC.CODE, of a `Code` operand whose byte is outside DEF: the ill-typed operand a model must refuse
  (R134). Safe: the hardware goes on, the model stops. -/
  | illTypedCode
  /-- `State.boot`, of a configuration that is not valid: refused before SFS is started (R184, R204). Safe. -/
  | schemaMismatch
deriving DecidableEq, Repr

/-- What a step does: run an instruction it has fetched, in the state it runs in, or make a transition that belongs to
no row of the opcode table (a handshake, a byte that is no delimiter, the end of a command, reset). -/
inductive Action
  | run (i : Instr) (s : State)
  | settle (o : Host.Outcome State Fault Refusal)

/-- The machine right after reset under a configuration (R37, R200): the backlog empty, no command in progress. -/
def State.resetWith (c : Cfg) : State where
  cfg := c
  bl := []
  stage := .idle
  work := Work.init
  script := []
  edges := []
  sent := []
  taken := []

/-- The machine right after reset. The configuration is a parameter that this constant has to fix: T0, the spec's own
for examples (R11; notes/assumptions/1.md). -/
def State.reset : State := State.resetWith Cfg.t0

end Sys2Proof.Machine
end

