-- ==== Sys2Proof/Machine/Flags.lean ====
section
/-! DEFINITION. SFS has no status flag, condition code or sticky bit (R24). The one flag it computes is `rsp_flag` of
the response beat (R76); what goes out on stream R beside it is here too (R78). -/

namespace Sys2Proof.Machine

/-- `rsp_flag` (R76): 1 for FEED and ENCODE, 1 for `Some`, the answer of MATCH. -/
def Response.flag : Response → Bool
  | .done => true
  | .decoded m => m.isSome
  | .bytes _ => true
  | .verdict b => b

/-- A sequence as the beats of a stream (R78): the last value carries `last = 1`; the empty sequence is one null
beat. -/
def valueBeats : List Record → List ResultBeat
  | [] => []
  | [r] => [.value true r]
  | r :: rest => .value false r :: valueBeats rest

def resultBeats (rs : List Record) : List ResultBeat :=
  if rs = [] then [.null] else valueBeats rs

/-- The result stream of a response, none for a command without one (R76). -/
def Response.stream : Response → List ResultBeat
  | .done => []
  | .decoded none => []
  | .decoded (some m) => resultBeats (m.map Element.record)
  | .bytes bs => resultBeats (bs.map byteRecord)
  | .verdict _ => []

/-- Everything the host takes for one response (R77): the response beat, then the result stream. -/
def Response.taken (op : BitVec 2) (r : Response) : List Taken :=
  .response op r.flag :: r.stream.map Taken.result

/-- Does the command take stream A? All but TRY_DECODE (R76). -/
def takesA (op : BitVec 2) : Bool := op != 1

/-- Does the command take stream B? MATCH alone (R76, R79). -/
def takesB (op : BitVec 2) : Bool := op == 3

end Sys2Proof.Machine
end

