-- ==== Sys2Proof/Machine/Ops.lean ====
section
/-! DEFINITION. The named operations over the backlog, the spans and the transient registers. SFS takes no exception
and returns from none (R170, R180), so there is no exception entry here; reset is the one transition that is no
command (R200). -/

namespace Sys2Proof.Machine

/-! ### The backlog -/

/-- FEED on the backlog (R92): append, then the guard, on exact natural numbers (R106). -/
def feedBacklog (c : Cfg) (bl chunk : List Byte) : List Byte :=
  if bl.length + chunk.length ≥ c.ceiling then [] else bl ++ chunk

/-- The element an item emits (R122 to R125, R128, R129); none for an instruction that is no item. -/
def itemElement (c : Cfg) : Instr → Option Element
  | .f32Item w => some (.f32 w)
  | .u32Item w => some (.u32 w)
  | .i32Item w => some (.i32 w)
  | .truncItem _ _ => some (.code c.bNone)
  | .codeItem b => some (.code (c.codeOf b))
  | .unknownByte _ => some (.code c.bNone)
  | .feed _ => none
  | .tryDecode => none
  | .encode _ => none
  | .matchMsgs _ _ => none
  | .startDelim => none
  | .endDelim => none
  | .encCode _ => none
  | .encF32 _ => none
  | .encU32 _ => none
  | .encI32 _ => none
  | .poll _ => none
  | .drain => none

/-- The loop of DecodeSpan (R120), for at most `fuel` items. Each item is at least one byte long, so the span's length
is fuel enough (R126). -/
def decodeSpanLoop (c : Cfg) : Nat → List Byte → Message
  | 0, _ => []
  | fuel + 1, span =>
    match decodeItem c span with
    | .error _ => []
    | .ok i => (itemElement c i).toList ++ decodeSpanLoop c fuel (span.drop i.itemLength)

/-- DecodeSpan (R120): total on every byte sequence (R127). -/
def decodeSpan (c : Cfg) (span : List Byte) : Message := decodeSpanLoop c span.length span

/-- TRY_DECODE (R95): the new backlog and the answer. -/
def tryDecode (c : Cfg) (bl : List Byte) : List Byte × Option Message :=
  match first bl c.bStart 0 with
  | none => (bl, none)
  | some s =>
    match first bl c.bEnd (s + 1) with
    | none => (bl, none)
    | some e => (bl.drop (e + 1), some (decodeSpan c (slice bl (s + 1) e)))

/-- The synchronisation phase (R35): a function of the backlog alone. -/
def syncPhase (c : Cfg) (bl : List Byte) : SyncPhase :=
  match first bl c.bStart 0 with
  | none => .hunting
  | some s =>
    match first bl c.bEnd (s + 1) with
    | none => .inFrame
    | some _ => .frameReady

/-! ### Encoding and matching -/

/-- `item` of R131 (R132, R137 to R139). -/
def encodeItem (c : Cfg) : Element → List Byte
  | .code code => [c.byteOf code]
  | .f32 w => c.bFloat :: bytesOfWord w
  | .u32 w => c.bUint :: bytesOfWord w
  | .i32 w => c.bInt :: bytesOfWord w

/-- `EncodeItems` (R131). -/
def encodeItems (c : Cfg) (els : Message) : List Byte := els.flatMap (encodeItem c)

/-- The two delimiters around the items (R60, R131). -/
def frame (c : Cfg) (items : List Byte) : List Byte := c.bStart :: items ++ [c.bEnd]

/-- ENCODE's result (R131). -/
def encodeFrame (c : Cfg) (els : Message) : List Byte := frame c (encodeItems c els)

/-- The comparison of R152 position by position, kinds only. -/
def sameKinds : Message → Message → Bool
  | [], [] => true
  | x :: xs, y :: ys => decide (x.kind = y.kind) && sameKinds xs ys
  | [], _ :: _ => false
  | _ :: _, [] => false

/-- MATCH (R152). -/
def matchResult (candidate template : Message) : Bool :=
  if candidate.length ≠ template.length then false else sameKinds candidate template

/-! ### Operations on the state -/

/-- Hand the host a response, at the transaction level. -/
def State.answer (s : State) (r : Response) : State := { s with sent := s.sent ++ [r] }

/-- FEED as one transition (R92). -/
def State.feed (s : State) (chunk : List Byte) : State :=
  { s with bl := feedBacklog s.cfg s.bl chunk, sent := s.sent ++ [.done] }

/-- TRY_DECODE as one transition (R95). -/
def State.tryDecode (s : State) : State :=
  { s with bl := (Machine.tryDecode s.cfg s.bl).1, sent := s.sent ++ [.decoded (Machine.tryDecode s.cfg s.bl).2] }

/-- `try` repeated until it answers `None` (R81), at most `fuel` times before the last one. A frame has two bytes, so
the backlog's length is fuel enough. -/
def State.drain : Nat → State → State
  | 0, s => s.tryDecode
  | fuel + 1, s =>
    match (Machine.tryDecode s.cfg s.bl).2 with
    | none => s.tryDecode
    | some _ => State.drain fuel s.tryDecode

/-- Reset (R200, R201): the backlog empty, a command in progress abandoned without a response, the configuration and
everything the host holds untouched. -/
def State.applyReset (s : State) : State := { s with bl := [], stage := .idle, work := Work.init }

/-- Start-up (R203, R204, R184): an invalid configuration is refused before SFS starts; a valid one starts from
reset. -/
def State.boot (d : CfgData) : Host.Outcome State Fault Refusal :=
  if h : d.valid = true then .next (State.resetWith ⟨d, h⟩) else .refused .schemaMismatch

/-- The span of the frame found (R94): `BL[s+1 .. e]`. -/
def State.span (s : State) : List Byte := slice s.bl (s.work.startIdx + 1) s.work.endIdx

/-- An item's effect on DecodeSpan's registers (R120): `out <- out ++ [el]`, `i <- next`. -/
def State.emit (s : State) (el : Element) (next : Nat) : State :=
  { s with work := { s.work with msg := s.work.msg ++ [el], cursor := next } }

/-- An element's effect on ENCODE's registers (R131): its item after the bytes so far, the next position. -/
def State.append (s : State) (bytes : List Byte) : State :=
  { s with work := { s.work with outBytes := s.work.outBytes ++ bytes, pos := s.work.pos + 1 } }

/-- Offer the response beat and hold the result stream ready behind it (R77). -/
def State.respond (s : State) (r : Response) : State :=
  { s with stage := .respond, work := { s.work with rspFlag := r.flag, rBuf := r.stream } }

/-- The length counter of the port level (R23): `blen` is `len(BL)` and nothing more. -/
def State.blen (s : State) : Nat := s.bl.length

/-- `blen`'s width in bits (R23): `ceil(log2(CEILING))`. -/
def blenWidth (c : Cfg) : Nat := Nat.clog 2 c.ceiling

end Sys2Proof.Machine
end

