-- ==== Sys2Proof/Machine/ElementCodec.lean ====
section
/-! DEFINITION. The items DecodeSpan recognises (R122 to R125, R128, R129), ENCODE as an atomic command (R131) and the
four element kinds of its operand (R132, R137 to R139). -/

namespace Sys2Proof.Machine

/-- F32.ITEM (R124). -/
def execF32Item (w : Word) (s : State) : Host.Outcome State Fault Refusal :=
  .next (s.emit (.f32 w) (s.work.cursor + 5))

/-- U32.ITEM (R128). -/
def execU32Item (w : Word) (s : State) : Host.Outcome State Fault Refusal :=
  .next (s.emit (.u32 w) (s.work.cursor + 5))

/-- I32.ITEM (R129). -/
def execI32Item (w : Word) (s : State) : Host.Outcome State Fault Refusal :=
  .next (s.emit (.i32 w) (s.work.cursor + 5))

/-- TRUNC.ITEM (R125): one placeholder, and `i <- n` (R120): decoding of the span ends. That it does the same outside
R125's operand (a head byte that is no tag, or 4 and more bytes after it), which no decoding gives, is the model's
choice (notes/assumptions/13.md). -/
def execTruncItem (_tag : Byte) (_rest : List Byte) (s : State) : Host.Outcome State Fault Refusal :=
  .next (s.emit (.code s.cfg.bNone) s.span.length)

/-- CODE.ITEM (R123): `Code(c)` with `c = code_of(b)` (R121). That it runs outside R123's operand is the model's choice
(notes/assumptions/13.md). -/
def execCodeItem (b : Byte) (s : State) : Host.Outcome State Fault Refusal :=
  .next (s.emit (.code (s.cfg.codeOf b)) (s.work.cursor + 1))

/-- UNKNOWN.BYTE (R122): the placeholder; the byte's value is lost. That it runs outside R122's operand is the model's
choice (notes/assumptions/13.md). -/
def execUnknownByte (_b : Byte) (s : State) : Host.Outcome State Fault Refusal :=
  .next (s.emit (.code s.cfg.bNone) (s.work.cursor + 1))

/-- ENCODE (R131): total on well-typed elements (R133); an ill-typed operand is refused (R134). -/
def execEncode (els : Message) (s : State) : Host.Outcome State Fault Refusal :=
  if els.all (Element.wellTyped s.cfg) then .next (s.answer (.bytes (encodeFrame s.cfg els)))
  else .refused .illTypedCode

/-- ENC.CODE (R132): exactly one byte; a byte outside DEF is ill typed and refused (R134). -/
def execEncCode (code : Byte) (s : State) : Host.Outcome State Fault Refusal :=
  if s.cfg.isDef code then .next (s.append (encodeItem s.cfg (.code code))) else .refused .illTypedCode

/-- ENC.F32 (R137). -/
def execEncF32 (w : Word) (s : State) : Host.Outcome State Fault Refusal :=
  .next (s.append (encodeItem s.cfg (.f32 w)))

/-- ENC.U32 (R138). -/
def execEncU32 (w : Word) (s : State) : Host.Outcome State Fault Refusal :=
  .next (s.append (encodeItem s.cfg (.u32 w)))

/-- ENC.I32 (R139). -/
def execEncI32 (w : Word) (s : State) : Host.Outcome State Fault Refusal :=
  .next (s.append (encodeItem s.cfg (.i32 w)))

end Sys2Proof.Machine
end

