-- ==== Sys2Proof/Machine/FrameBuffer.lean ====
section
/-! DEFINITION. The frame buffer's instructions: FEED and TRY_DECODE as atomic commands (R48, R92, R95), and the two
delimiters that TRY_DECODE's scans meet on the ports (R93, R94). -/

namespace Sys2Proof.Machine

/-- FEED (R90 to R92): append and guard; the response is the same whether or not the guard fired. -/
def execFeed (chunk : List Byte) (s : State) : Host.Outcome State Fault Refusal := .next (s.feed chunk)

/-- TRY_DECODE (R93 to R96). -/
def execTryDecode (s : State) : Host.Outcome State Fault Refusal := .next s.tryDecode

/-- START (R93): marks the index `s` of the start delimiter; the second scan goes on from `s + 1`. -/
def execStartDelim (s : State) : Host.Outcome State Fault Refusal :=
  .next { s with
    stage := .scanEnd
    work := { s.work with startIdx := s.work.cursor, cursor := s.work.cursor + 1 } }

/-- END (R94): marks the index `e` of the end delimiter; DecodeSpan begins at the span's first byte with nothing
emitted (R120). -/
def execEndDelim (s : State) : Host.Outcome State Fault Refusal :=
  .next { s with
    stage := .items
    work := { s.work with endIdx := s.work.cursor, cursor := 0, msg := [] } }

end Sys2Proof.Machine
end

