-- ==== Sys2Proof/Machine/Matcher.lean ====
section
/-! DEFINITION. MATCH as an atomic command (R150 to R152). -/

namespace Sys2Proof.Machine

/-- MATCH (R152): the answer; the backlog is neither read nor written (R150). -/
def execMatchMsgs (candidate template : Message) (s : State) : Host.Outcome State Fault Refusal :=
  .next (s.answer (.verdict (matchResult candidate template)))

end Sys2Proof.Machine
end

