-- ==== Sys2Proof/Machine/Pseudo.lean ====
section
/-! DEFINITION. The two script abbreviations (R81), "with no semantics of their own". -/

namespace Sys2Proof.Machine

/-- poll (R81): `feed <bytes>` followed by `try`. -/
def execPoll (chunk : List Byte) (s : State) : Host.Outcome State Fault Refusal :=
  .next (s.feed chunk).tryDecode

/-- drain (R81): `try` repeated until it answers `None`. -/
def execDrain (s : State) : Host.Outcome State Fault Refusal := .next (State.drain s.bl.length s)

end Sys2Proof.Machine
end

