-- ==== Sys2Proof/Machine/Dispatch.lean ====
section
/-! DEFINITION. exec: one arm per constructor of Instr, one direct call of a meaning per arm. -/

namespace Sys2Proof.Machine

-- The table's order: commands, delimiters, items, element records, abbreviations.
def exec (i : Instr) (s : State) : Host.Outcome State Fault Refusal :=
  match i with
  | .feed chunk => Sys2Proof.Machine.execFeed chunk s
  | .tryDecode => Sys2Proof.Machine.execTryDecode s
  | .encode els => Sys2Proof.Machine.execEncode els s
  | .matchMsgs candidate template => Sys2Proof.Machine.execMatchMsgs candidate template s
  | .startDelim => Sys2Proof.Machine.execStartDelim s
  | .endDelim => Sys2Proof.Machine.execEndDelim s
  | .f32Item w => Sys2Proof.Machine.execF32Item w s
  | .u32Item w => Sys2Proof.Machine.execU32Item w s
  | .i32Item w => Sys2Proof.Machine.execI32Item w s
  | .truncItem tag rest => Sys2Proof.Machine.execTruncItem tag rest s
  | .codeItem b => Sys2Proof.Machine.execCodeItem b s
  | .unknownByte b => Sys2Proof.Machine.execUnknownByte b s
  | .encCode code => Sys2Proof.Machine.execEncCode code s
  | .encF32 w => Sys2Proof.Machine.execEncF32 w s
  | .encU32 w => Sys2Proof.Machine.execEncU32 w s
  | .encI32 w => Sys2Proof.Machine.execEncI32 w s
  | .poll chunk => Sys2Proof.Machine.execPoll chunk s
  | .drain => Sys2Proof.Machine.execDrain s

end Sys2Proof.Machine
end

