-- ==== Sys2Proof/Machine/Port.lean ====
section
/-! DEFINITION. What the next step does: the host's next act at the transaction level (R205), or one rising edge of
`clk` at the port level (R74 to R79). The port level computes a command in pieces, one instruction or one handshake an
edge, and changes the backlog in one edge, no later than the response beat (R77). How many edges a command takes is
this model's own (notes/assumptions/6.md): the spec gives no timing (R213). -/

namespace Sys2Proof.Machine

/-! ### Ports -/

def State.aReady (s : State) : Bool := s.stage == .operands && takesA s.work.op && !s.work.aDone

def State.bReady (s : State) : Bool := s.stage == .operands && takesB s.work.op && !s.work.bDone

/-- The output ports before a rising edge (R77 to R79), given the `rst` the host drives: nothing is taken or offered
on an edge that resets (R201). -/
def State.outputs (s : State) (rst : Bool) : Outputs where
  cmdReady := s.stage == .idle && !rst
  aReady := s.aReady && !rst
  bReady := s.bReady && !rst
  rsp := if s.stage == .respond && !rst then some (s.work.op, s.work.rspFlag) else none
  r := if s.stage == .result && !rst then s.work.rBuf.head? else none

/-! ### Operand streams -/

/-- A FEED byte (R33, R106): the count saturates where the running total reaches the ceiling, and from then on no byte
is stored, since the guard will clear them all. -/
def Work.takeFeedByte (ceiling blen : Nat) (r : Record) (w : Work) : Work :=
  if w.feedOver then w
  else if blen + (w.feedCount + 1) ≥ ceiling then
    { w with feedCount := w.feedCount + 1, feedOver := true }
  else { w with feedCount := w.feedCount + 1, aBuf := w.aBuf ++ [r] }

/-- A beat on stream A (R78). A null beat with `last` and nothing taken before it is the empty sequence. Elsewhere R78
gives it no meaning: that it is taken and adds no value, its kind and data being ignored (U14), is the model's choice,
and whether it ends the sequence is free (notes/assumptions/8.md). -/
def Work.takeA (ceiling blen : Nat) (b : Beat) (w : Work) : Work :=
  if b.null then
    { w with
      aDone := (b.last && w.aBuf.isEmpty && w.feedCount == 0) || Config.strayNullEnds w.op false b.last w.aBuf }
  else if w.op = 0 then { w.takeFeedByte ceiling blen ⟨b.kind, b.data⟩ with aDone := b.last }
  else { w with aBuf := w.aBuf ++ [⟨b.kind, b.data⟩], aDone := b.last }

/-- A beat on stream B (R78). -/
def Work.takeB (b : Beat) (w : Work) : Work :=
  if b.null then
    { w with bDone := (b.last && w.bBuf.isEmpty) || Config.strayNullEnds w.op true b.last w.bBuf }
  else { w with bBuf := w.bBuf ++ [⟨b.kind, b.data⟩], bDone := b.last }

/-- Where a command goes once the streams it needs are in; it stays with its operands until then. -/
def Work.stageAfterOperands (w : Work) : Stage :=
  if (!takesA w.op || w.aDone) && (!takesB w.op || w.bDone) then
    if w.op = 0 then .append
    else if w.op = 1 then .scanStart
    else if w.op = 2 then .encoding
    else .matching
  else .operands

/-- The transient registers after an edge of the operand streams: each stream that is ready takes the beat it is
offered, in any interleaving (R78). -/
def State.operandsTaken (p : Pins) (s : State) : Work :=
  let w := if p.aValid && s.aReady then s.work.takeA s.cfg.ceiling s.blen p.a else s.work
  if p.bValid && s.bReady then w.takeB p.b else w

/-- One edge of the operand streams. -/
def State.takeOperands (p : Pins) (s : State) : State :=
  { s with work := s.operandsTaken p, stage := (s.operandsTaken p).stageAfterOperands }

/-! ### One edge -/

/-- Accept a command (R77): its transient registers start afresh (R33). -/
def State.accept (op : BitVec 2) (s : State) : State :=
  { s with stage := if op = 1 then .scanStart else .operands, work := { Work.init with op := op } }

/-- The end of a command: its transient registers are discarded (R33) and `cmd_ready` is 1 again (R77). -/
def State.finish (s : State) : State := { s with stage := .idle, work := Work.init }

/-- FEED's effect, its chunk complete: everything is lost where the latch says that the length has reached the ceiling,
else the bytes taken are appended (R92, R33). -/
def State.appendChunk (s : State) : State :=
  { s with bl := if s.work.feedOver then [] else s.bl ++ s.work.aBuf.map Record.byte }

/-- DecodeSpan is done: the consumed prefix is dropped and the message is the answer (R95). -/
def State.extract (s : State) : State :=
  { s with bl := s.bl.drop (s.work.endIdx + 1) }.respond (.decoded (some s.work.msg))

/-- One position of MATCH (R152). -/
def State.matchPosition (s : State) : State :=
  if s.work.aBuf.length ≠ s.work.bBuf.length then s.respond (.verdict false)
  else
    match s.work.aBuf[s.work.pos]?, s.work.bBuf[s.work.pos]? with
    | some x, some y =>
      if x.element.kind = y.element.kind then { s with work := { s.work with pos := s.work.pos + 1 } }
      else s.respond (.verdict false)
    | _, _ => s.respond (.verdict true)

/-- The host takes the response beat (R77); the result stream follows where there is one. -/
def State.responseTaken (s : State) : State :=
  let t := { s with taken := s.taken ++ [Taken.response s.work.op s.work.rspFlag] }
  if s.work.rBuf = [] then t.finish else { t with stage := .result }

/-- The host takes a beat of stream R (R78); the command ends with the last. -/
def State.resultTaken (s : State) : State :=
  match s.work.rBuf with
  | [] => s.finish
  | [b] => { s with taken := s.taken ++ [Taken.result b] }.finish
  | b :: rest => { s with taken := s.taken ++ [Taken.result b], work := { s.work with rBuf := rest } }

/-- The scan goes past a byte that is not the delimiter looked for (R93, R94). -/
def State.scanOn (s : State) : State := { s with work := { s.work with cursor := s.work.cursor + 1 } }

/-- A sentinel scan at its position (R93, R94): the backlog used up, the answer is `None` and nothing changes; a
delimiter is an instruction; any other byte is passed over. -/
def State.scan (s : State) (look : Byte → Fetched) : Action :=
  match s.bl[s.work.cursor]? with
  | none => .settle (.next (s.respond (.decoded none)))
  | some b =>
    match decode s.cfg (look b) with
    | .ok i => .run i s
    | .error _ => .settle (.next s.scanOn)

/-- One rising edge with the pins `p` (R74 to R79). `rst` comes before everything (R201). -/
def State.edge (p : Pins) (s : State) : Action :=
  if p.rst then .settle (.next s.applyReset)
  else
    match s.stage with
    | .idle => .settle (.next (if p.cmdValid then s.accept p.cmdOp else s))
    | .operands => .settle (.next (s.takeOperands p))
    | .append => .settle (.next (s.appendChunk.respond .done))
    | .scanStart => s.scan .startScan
    | .scanEnd => s.scan .endScan
    | .items =>
      match decode s.cfg (.itemHead (s.span.drop s.work.cursor)) with
      | .ok i => .run i s
      | .error _ => .settle (.next s.extract)
    | .encoding =>
      match s.work.aBuf[s.work.pos]? with
      | some r => .run (decodeRecord r) s
      | none => .settle (.next (s.respond (.bytes (frame s.cfg s.work.outBytes))))
    | .matching => .settle (.next s.matchPosition)
    | .respond => .settle (.next (if p.rspReady then s.responseTaken else s))
    | .result => .settle (.next (if p.rReady then s.resultTaken else s))

/-! ### The transaction level -/

/-- The instruction of a host act; reset is none (R181). -/
def HostAct.instr : HostAct → Option Instr
  | .reset => none
  | .command op a b => some (decodeCommand op a b)
  | .poll chunk => some (.poll chunk)
  | .drain => some .drain

/-- A host act taken whole, one at a time (R51). -/
def State.act (h : HostAct) (s : State) : Action :=
  match h.instr with
  | none => .settle (.next s.applyReset)
  | some i => .run i s

/-! ### The next step -/

/-- What the next step does. With no command in progress on the ports, the host's next act is taken whole, if there is
one; else the clock goes on by one edge, on quiet pins where the host drives none (R183). -/
def State.plan (s : State) : Action :=
  match s.stage, s.script with
  | .idle, h :: rest => State.act h { s with script := rest }
  | _, _ => State.edge (s.edges.headD Pins.quiet) { s with edges := s.edges.tail }

/-- A command with these operands as the next thing the host does. -/
def State.placeCommand (op : BitVec 2) (a b : List Record) (s : State) : State :=
  { s with stage := .idle, script := .command op a b :: s.script }

/-- A record as the next element of ENCODE's operand, on an edge that does not reset. -/
def State.placeRecord (r : Record) (s : State) : State :=
  { s with
    stage := .encoding
    work := { s.work with aBuf := [r], pos := 0 }
    edges := Pins.quiet :: s.edges }

/-- These bytes at the oldest end of the backlog, in place of those that were there, with TRY_DECODE got to this stage
and these positions, on an edge that does not reset. -/
def State.placeBytes (bytes : List Byte) (stage : Stage) (startIdx endIdx cursor : Nat) (s : State) : State :=
  { s with
    bl := bytes ++ s.bl.drop bytes.length
    stage := stage
    work := { s.work with startIdx := startIdx, endIdx := endIdx, cursor := cursor }
    edges := Pins.quiet :: s.edges }

end Sys2Proof.Machine
end

