-- ==== Sys2Proof/Machine/Step.lean ====
section
/-! DEFINITION. One step, and a word placed where the next step fetches. -/

namespace Sys2Proof.Machine

/-- Run the instruction fetched, or make the transition that belongs to none. -/
def Action.perform : Action → Host.Outcome State Fault Refusal
  | .run i t => exec i t
  | .settle o => o

/-- One step. -/
def step (s : State) : Host.Outcome State Fault Refusal := s.plan.perform

/-- `s` with what is fetched where the next step fetches it: a command as the host's next act (R76), a byte under a
scan at the scan's position (R93, R94), a span between its delimiters with the cursor on its head (R69), a record as
the next element of ENCODE's operand (R75). -/
def State.place (s : State) : Fetched → State
  | .command op a b => s.placeCommand op a b
  | .poll chunk => { s with stage := .idle, script := .poll chunk :: s.script }
  | .drain => { s with stage := .idle, script := .drain :: s.script }
  | .startScan b => s.placeBytes [b] .scanStart 0 0 0
  | .endScan b => s.placeBytes [s.cfg.bStart, b] .scanEnd 0 0 1
  | .itemHead span => s.placeBytes (s.cfg.bStart :: span ++ [s.cfg.bEnd]) .items 0 (span.length + 1) 0
  | .record r => s.placeRecord r

/-- `s` with a word of the opcode table where the next step fetches. A program comes to run from reset as the host's
acts or pins (notes/assumptions/2.md). -/
def State.withFetchWord (s : State) (nbits w : Nat) : State := s.place (fetchedOfTableWord s.cfg nbits w)

end Sys2Proof.Machine
end

