-- ==== Sys2Proof/Machine/Script.lean ====
section
/-! DEFINITION. The textual syntax of the spec's scripts (R80, R81): one command per line, `;` starting a comment,
read into a host act; and how a response is written. A line that is not of the syntax is read as none. -/

namespace Sys2Proof.Machine

/-! ### Tokens -/

inductive Token
  | word (cs : List Char)
  | open_
  | close
  | openList
  | closeList
  | comma
deriving DecidableEq, Repr

/-- A word read so far, as a token before `rest`. -/
def flushWord (acc : List Char) (rest : List Token) : List Token :=
  if acc = [] then rest else .word acc.reverse :: rest

def punctuation : Char → Option Token
  | '(' => some .open_
  | ')' => some .close
  | '[' => some .openList
  | ']' => some .closeList
  | ',' => some .comma
  | _ => none

/-- The tokens of a line; a comment ends it (R80). `acc` is the word being read, backwards. -/
def tokens (acc : List Char) : List Char → List Token
  | [] => flushWord acc []
  | ch :: rest =>
    if ch = ';' then flushWord acc []
    else if ch = ' ' then flushWord acc (tokens [] rest)
    else
      match punctuation ch with
      | some t => flushWord acc (t :: tokens [] rest)
      | none => tokens (ch :: acc) rest

/-! ### Numbers -/

def digitValue (ch : Char) : Option Nat :=
  if '0' ≤ ch ∧ ch ≤ '9' then some (ch.toNat - '0'.toNat)
  else if 'a' ≤ ch ∧ ch ≤ 'f' then some (ch.toNat - 'a'.toNat + 10)
  else if 'A' ≤ ch ∧ ch ≤ 'F' then some (ch.toNat - 'A'.toNat + 10)
  else none

/-- Digits in a base, most significant first, after the value `acc`. -/
def digitsFrom (base acc : Nat) : List Char → Option Nat
  | [] => some acc
  | ch :: rest =>
    match digitValue ch with
    | some d => if d < base then digitsFrom base (acc * base + d) rest else none
    | none => none

/-- A non-empty digit string. -/
def number (base : Nat) (cs : List Char) : Option Nat := if cs = [] then none else digitsFrom base 0 cs

/-- A hex byte of a byte listing, two digits without prefix (R13). -/
def hexByte : List Char → Option Byte
  | [h, l] => (number 16 [h, l]).map (BitVec.ofNat 8)
  | _ => none

def boundedWord (n : Option Nat) : Option Word :=
  match n with
  | some k => if k < 2 ^ 32 then some (BitVec.ofNat 32 k) else none
  | none => none

/-- A hex word `0x…`, none where the text is no such thing. -/
def hexWord : List Char → Option Word
  | '0' :: 'x' :: cs => boundedWord (number 16 cs)
  | _ => none

/-- Division to the nearest integer, ties to even. -/
def divNearestEven (a b : Nat) : Nat :=
  let q := a / b
  let r := a % b
  if 2 * r < b then q else if 2 * r > b then q + 1 else if q % 2 = 0 then q else q + 1

/-- `floor(log2(m / d))` for `m, d > 0`, from the two logarithms and one comparison. -/
def ratioLog2 (m d : Nat) : Int :=
  let e : Int := (Nat.log2 m : Int) - (Nat.log2 d : Int)
  let below := if 0 ≤ e then decide (m < d * 2 ^ e.toNat) else decide (m * 2 ^ (-e).toNat < d)
  if below then e - 1 else e

/-- The binary32 pattern nearest to `m / d`, ties to even, by general knowledge (R80; G2 and G3 of
spec/93_implementation_defined.md); none where it is no finite number. -/
def binary32 (negative : Bool) (m d : Nat) : Option Word :=
  let sign : Nat := if negative then 2 ^ 31 else 0
  if m = 0 then some (BitVec.ofNat 32 sign)
  else
    let e := max (ratioLog2 m d) (-126)
    let q := if e ≤ 23 then divNearestEven (m * 2 ^ (23 - e).toNat) d
      else divNearestEven m (d * 2 ^ (e - 23).toNat)
    let bits := (e + 126).toNat * 2 ^ 23 + q
    if bits < 0x7F800000 then some (BitVec.ofNat 32 (sign + bits)) else none

/-- An unsigned decimal literal `digits` or `digits.digits`, as a numerator and a power of ten. -/
def decimalRatio (cs : List Char) : Option (Nat × Nat) :=
  let whole := cs.takeWhile (· != '.')
  match number 10 whole, cs.drop whole.length with
  | some n, [] => some (n, 1)
  | some n, _ :: frac =>
    if frac = [] then none
    else (digitsFrom 10 n frac).map (fun m => (m, 10 ^ frac.length))
  | none, _ => none

def floatWord : List Char → Option Word
  | '-' :: cs => (decimalRatio cs).bind fun r => binary32 true r.1 r.2
  | cs => (decimalRatio cs).bind fun r => binary32 false r.1 r.2

/-- A signed decimal as a two's complement word (R68, R80). -/
def signedWord : List Char → Option Word
  | '-' :: cs => (number 10 cs).bind fun n => if n ≤ 2 ^ 31 then some (BitVec.ofInt 32 (-(n : Int))) else none
  | cs => (number 10 cs).bind fun n => if n < 2 ^ 31 then some (BitVec.ofNat 32 n) else none

/-! ### Element literals and lines -/

/-- `Code(NAME)` with a name of the configuration, or `Code(0xNN)` by byte (R80). -/
def codeLiteral (c : Cfg) (cs : List Char) : Option Byte :=
  match cs with
  | ['0', 'x', h, l] => hexByte [h, l]
  | _ => (c.names.find? (fun p => p.1 == String.ofList cs)).map Prod.snd

def elementLiteral (c : Cfg) (kind arg : List Char) : Option Element :=
  if kind = ['C', 'o', 'd', 'e'] then (codeLiteral c arg).map .code
  else if kind = ['F', '3', '2'] then ((hexWord arg).or (floatWord arg)).map .f32
  else if kind = ['U', '3', '2'] then ((hexWord arg).or (boundedWord (number 10 arg))).map .u32
  else if kind = ['I', '3', '2'] then ((hexWord arg).or (signedWord arg)).map .i32
  else none

/-- The elements of a list up to its closing bracket, and the tokens after it. -/
def listTail (c : Cfg) : List Token → Option (Message × List Token)
  | .word kind :: .open_ :: .word arg :: .close :: .comma :: rest =>
    match elementLiteral c kind arg, listTail c rest with
    | some el, some (els, after) => some (el :: els, after)
    | _, _ => none
  | .word kind :: .open_ :: .word arg :: .close :: .closeList :: rest =>
    (elementLiteral c kind arg).map fun el => ([el], rest)
  | _ => none

/-- A bracketed list of element literals. -/
def elementList (c : Cfg) : List Token → Option (Message × List Token)
  | .openList :: .closeList :: rest => some ([], rest)
  | .openList :: rest => listTail c rest
  | _ => none

/-- A byte listing up to the end of the line. -/
def byteListing : List Token → Option (List Byte)
  | [] => some []
  | .word cs :: rest =>
    match hexByte cs, byteListing rest with
    | some b, some bs => some (b :: bs)
    | _, _ => none
  | _ :: _ => none

/-- The operands of `match`: a list, a comma, a list. -/
def matchOperands (c : Cfg) (ts : List Token) : Option (Message × Message) :=
  match elementList c ts with
  | some (candidate, .comma :: rest) =>
    match elementList c rest with
    | some (template, []) => some (candidate, template)
    | _ => none
  | _ => none

/-- The host act of a command line (R80, R81). -/
def commandOf (c : Cfg) : List Token → Option HostAct
  | .word cmd :: rest =>
    if cmd = ['f', 'e', 'e', 'd'] then
      (byteListing rest).map fun bs => .command 0 (bs.map byteRecord) []
    else if cmd = ['t', 'r', 'y'] then
      if rest = [] then some (.command 1 [] []) else none
    else if cmd = ['e', 'n', 'c'] then
      match elementList c rest with
      | some (els, []) => some (.command 2 (els.map Element.record) [])
      | _ => none
    else if cmd = ['m', 'a', 't', 'c', 'h'] then
      (matchOperands c rest).map fun p => .command 3 (p.1.map Element.record) (p.2.map Element.record)
    else if cmd = ['p', 'o', 'l', 'l'] then (byteListing rest).map .poll
    else if cmd = ['d', 'r', 'a', 'i', 'n'] then if rest = [] then some .drain else none
    else none
  | _ => none

/-- A script line: an empty line or a comment is no act at all. -/
def parseLine (c : Cfg) (line : String) : Option (List HostAct) :=
  match tokens [] line.toList with
  | [] => some []
  | ts => (commandOf c ts).map ([·])

/-- A script: its lines in order, none where one of them is not of the syntax. -/
def parseScript (c : Cfg) : List String → Option (List HostAct)
  | [] => some []
  | line :: rest =>
    match parseLine c line, parseScript c rest with
    | some acts, some more => some (acts ++ more)
    | _, _ => none

/-! ### How a response is written -/

def hexDigit (n : Nat) : Char := if n < 10 then Char.ofNat ('0'.toNat + n) else Char.ofNat ('A'.toNat + (n - 10))

/-- `n` hex digits of a number, most significant first. -/
def hexDigits : Nat → Nat → List Char
  | 0, _ => []
  | n + 1, v => hexDigits n (v / 16) ++ [hexDigit (v % 16)]

def elementText (c : Cfg) : Element → List Char
  | .code b =>
    "Code(".toList
      ++ (match c.names.find? (fun p => p.2 == b) with
          | some p => p.1.toList
          | none => "0x".toList ++ hexDigits 2 b.toNat) ++ [')']
  | .f32 w => "F32(0x".toList ++ hexDigits 8 w.toNat ++ [')']
  | .u32 w => "U32(0x".toList ++ hexDigits 8 w.toNat ++ [')']
  | .i32 w => "I32(0x".toList ++ hexDigits 8 w.toNat ++ [')']

/-- `None`, `Some[...]`, a hex byte list, `true`, `false` (R80); `done` for FEED (R36). -/
def responseText (c : Cfg) : Response → List Char
  | .done => "done".toList
  | .decoded none => "None".toList
  | .decoded (some m) => "Some[".toList ++ (", ".toList).intercalate (m.map (elementText c)) ++ [']']
  | .bytes bs => [' '].intercalate (bs.map fun b => hexDigits 2 b.toNat)
  | .verdict true => "true".toList
  | .verdict false => "false".toList

end Sys2Proof.Machine
end

