-- ==== Sys2Proof/Safety.lean ====
section
/-! DEFINITION. What a safe run of SFS is, in the terms the statements use: the invariant of the backlog and of a
command in progress on the ports, the conditions of the round-trip law, and a host that follows the port protocol. -/

namespace Sys2Proof.Machine

/-! ### Runs -/

/-- `n` steps, one after the other (R205), stopping where one is refused. -/
def run : Nat → State → Host.Outcome State Fault Refusal
  | 0, s => .next s
  | n + 1, s =>
    match step s with
    | .next t => run n t
    | .fault f => .fault f
    | .refused r => .refused r

/-- A sequence of instructions, each in the state the one before left (R51). -/
def execAll : List Instr → State → Host.Outcome State Fault Refusal
  | [], s => .next s
  | i :: rest, s =>
    match exec i s with
    | .next t => execAll rest t
    | .fault f => .fault f
    | .refused r => .refused r

/-! ### The invariant -/

/-- R21: at every command boundary `len(BL) < CEILING`. -/
def State.backlogOk (s : State) : Prop := s.bl.length < s.cfg.ceiling

/-- FEED on the ports (R33, R106): until the latch is set, the bytes taken are stored and counted, and they fit. -/
def State.feedOk (s : State) : Prop :=
  s.work.feedOver = false →
    s.work.feedCount = s.work.aBuf.length ∧ s.bl.length + s.work.aBuf.length < s.cfg.ceiling

/-- What holds of the transient registers at each stage of a command (R33, R77). -/
def State.stageOk (s : State) : Prop :=
  match s.stage with
  | .idle => s.work = Work.init
  | .operands =>
    s.work.stageAfterOperands = .operands ∧ s.work.pos = 0 ∧ s.work.outBytes = [] ∧ (s.work.op = 0 → s.feedOk)
  | .append => s.work.op = 0 ∧ s.feedOk
  | .scanStart =>
    s.work.op = 1 ∧ s.work.cursor ≤ s.bl.length ∧ s.cfg.bStart ∉ s.bl.take s.work.cursor
  | .scanEnd =>
    s.work.op = 1 ∧ first s.bl s.cfg.bStart 0 = some s.work.startIdx ∧ s.work.startIdx < s.work.cursor
      ∧ s.work.cursor ≤ s.bl.length ∧ s.cfg.bEnd ∉ slice s.bl (s.work.startIdx + 1) s.work.cursor
  | .items =>
    s.work.op = 1 ∧ first s.bl s.cfg.bStart 0 = some s.work.startIdx
      ∧ first s.bl s.cfg.bEnd (s.work.startIdx + 1) = some s.work.endIdx
      ∧ s.work.cursor ≤ s.span.length
      ∧ decodeSpan s.cfg s.span = s.work.msg ++ decodeSpan s.cfg (s.span.drop s.work.cursor)
  | .encoding =>
    s.work.op = 2 ∧ s.work.pos ≤ s.work.aBuf.length
      ∧ s.work.outBytes = encodeItems s.cfg ((s.work.aBuf.take s.work.pos).map Record.element)
  | .matching =>
    s.work.op = 3 ∧ s.work.pos ≤ s.work.aBuf.length
      ∧ (s.work.pos ≠ 0 → s.work.aBuf.length = s.work.bBuf.length)
      ∧ sameKinds ((s.work.aBuf.take s.work.pos).map Record.element)
          ((s.work.bBuf.take s.work.pos).map Record.element) = true
  | .respond =>
    (s.work.op = 0 → s.work.rspFlag = true ∧ s.work.rBuf = [])
      ∧ (s.work.op = 1 → (s.work.rspFlag = true ↔ s.work.rBuf ≠ []))
      ∧ (s.work.op = 2 → s.work.rspFlag = true ∧ s.work.rBuf ≠ [])
      ∧ (s.work.op = 3 → s.work.rBuf = [])
  | .result => (s.work.op = 1 ∨ s.work.op = 2) ∧ s.work.rspFlag = true ∧ s.work.rBuf ≠ []

/-- The invariant of the machine. -/
def State.Inv (s : State) : Prop := s.backlogOk ∧ s.stageOk

/-! ### The backlog as memory -/

/-- One byte of the backlog space, by position (R40, R41). -/
def State.readByte (s : State) (k : Nat) : Option Byte := s.bl[k]?

/-- The backlog as cells, position and byte: the form in which every byte below `len(BL)` is listed, in order. -/
def State.cells (s : State) : List Host.Cell := s.bl.zipIdx.map fun p => (p.2, p.1)

/-- Addresses rise strictly. -/
def Memory.wf (cells : List Host.Cell) : Bool := decide ((cells.map Prod.fst).Pairwise (· < ·))

/-! ### The round trip -/

/-- Wire-safe (R63): no `Code` element holds a structural code, no payload byte equals `B_END`. -/
def wireSafe (c : Cfg) (els : Message) : Prop :=
  ∀ el ∈ els,
    match el with
    | .code b => c.isStructural b = false
    | .f32 w => c.bEnd ∉ bytesOfWord w
    | .u32 w => c.bEnd ∉ bytesOfWord w
    | .i32 w => c.bEnd ∉ bytesOfWord w

/-- Condition (i) of R136: no byte of the encoded items equals `B_END`. -/
def noEndByte (c : Cfg) (els : Message) : Prop := c.bEnd ∉ encodeItems c els

/-- Condition (ii) of R136: no `Code` element holds one of the three tags. -/
def noTagCode (c : Cfg) (els : Message) : Prop := ∀ b, Element.code b ∈ els → c.isTag b = false

/-- Every element is well typed (R134). -/
def wellTyped (c : Cfg) (els : Message) : Prop := ∀ el ∈ els, el.wellTyped c = true

/-- The span's parse (R69): the items DecodeSpan recognises in it, in order. -/
def parseLoop (c : Cfg) : Nat → List Byte → List Instr
  | 0, _ => []
  | fuel + 1, span =>
    match decodeItem c span with
    | .error _ => []
    | .ok i => i :: parseLoop c fuel (span.drop i.itemLength)

def parse (c : Cfg) (span : List Byte) : List Instr := parseLoop c span.length span

/-- An item that degrades to a placeholder (R122, R125, R140). -/
def degrades : Instr → Bool
  | .truncItem _ _ => true
  | .unknownByte _ => true
  | _ => false

/-! ### A host on the ports -/

/-- A sequence as the beats the host drives (R78). -/
def valueInputs : List Record → List Beat
  | [] => []
  | [r] => [⟨false, true, r.kind, r.data⟩]
  | r :: rest => ⟨false, false, r.kind, r.data⟩ :: valueInputs rest

def inputBeats (rs : List Record) : List Beat :=
  if rs = [] then [⟨true, true, 0, 0⟩] else valueInputs rs

/-- The edge on which a command is accepted (R77). -/
def Pins.issue (op : BitVec 2) : Pins := { Pins.quiet with cmdValid := true, cmdOp := op }

/-- An edge on which the host takes whatever is offered. -/
def Pins.collect : Pins := { Pins.quiet with rspReady := true, rReady := true }

/-- Edges that carry operands: no reset, no further command, and the beats on streams A and B, at whatever pace and in
whatever interleaving, are those of the sequences (R78). -/
def carry (op : BitVec 2) (a b : List Record) (edges : List Pins) : Prop :=
  (∀ p ∈ edges, p.rst = false ∧ p.cmdValid = false)
    ∧ (edges.filter Pins.aValid).map Pins.a = (if takesA op then inputBeats a else [])
    ∧ (edges.filter Pins.bValid).map Pins.b = (if takesB op then inputBeats b else [])

end Sys2Proof.Machine
end

