-- ==== Sys2Proof/Certificates/Slice0/Obligations.lean ====
section
/-! DEFINITION. The statements for the provers, each a formalisation of rules of spec/ that its docstring names. -/

open Sys2Proof
open Sys2Proof.Machine

/-! ### Commands taken whole -/

/-- R91, R92: FEED appends the chunk and clears everything where the total reaches the ceiling; the response is the
same either way, and nothing else changes. It completes in every state, for every chunk. -/
def Obligations.FeedAppendsOrClears : Prop :=
  ∀ (s : State) (chunk : List Byte),
    exec (.feed chunk) s = .next { s with
      bl := if s.bl.length + chunk.length ≥ s.cfg.ceiling then [] else s.bl ++ chunk
      sent := s.sent ++ [.done] }

/-- R95: TRY_DECODE. No start delimiter: `None`. A first start and no end after it: `None`. The first start and the
first end after it: `Some` of the span decoded, everything through the end dropped, the rest the new backlog. Every
backlog is of one of the three forms, and nothing else changes. -/
def Obligations.TryDecodeExtractsEarliestFrame : Prop :=
  ∀ s : State,
    (s.cfg.bStart ∉ s.bl →
      exec .tryDecode s = .next { s with sent := s.sent ++ [.decoded none] })
    ∧ (∀ pre rest, s.bl = pre ++ s.cfg.bStart :: rest → s.cfg.bStart ∉ pre → s.cfg.bEnd ∉ rest →
        exec .tryDecode s = .next { s with sent := s.sent ++ [.decoded none] })
    ∧ (∀ pre span post, s.bl = pre ++ s.cfg.bStart :: (span ++ s.cfg.bEnd :: post) → s.cfg.bStart ∉ pre →
        s.cfg.bEnd ∉ span →
        exec .tryDecode s
          = .next { s with bl := post, sent := s.sent ++ [.decoded (some (decodeSpan s.cfg span))] })

/-- R131: ENCODE of well-typed elements: the start delimiter, each element's item, the end delimiter; the backlog and
everything else unchanged. -/
def Obligations.EncodeFramesItems : Prop :=
  ∀ (s : State) (els : Message), wellTyped s.cfg els →
    exec (.encode els) s = .next { s with
      sent := s.sent ++ [.bytes (s.cfg.bStart :: els.flatMap (fun el =>
        match el with
        | .code b => [b]
        | .f32 w => [s.cfg.bFloat, w.extractLsb' 0 8, w.extractLsb' 8 8, w.extractLsb' 16 8, w.extractLsb' 24 8]
        | .u32 w => [s.cfg.bUint, w.extractLsb' 0 8, w.extractLsb' 8 8, w.extractLsb' 16 8, w.extractLsb' 24 8]
        | .i32 w => [s.cfg.bInt, w.extractLsb' 0 8, w.extractLsb' 8 8, w.extractLsb' 16 8, w.extractLsb' 24 8])
        ++ [s.cfg.bEnd])] }

/-- R134: the one ill-typed operand, a `Code` element whose byte is outside DEF, is refused, by ENCODE and by the
record. -/
def Obligations.IllTypedCodeIsRefused : Prop :=
  (∀ (s : State) (els : Message) (b : Byte), Element.code b ∈ els → s.cfg.isDef b = false →
    exec (.encode els) s = .refused .illTypedCode)
  ∧ (∀ (s : State) (b : Byte), s.cfg.isDef b = false → exec (.encCode b) s = .refused .illTypedCode)

/-- R152: MATCH is true exactly when the lengths are equal and the kinds are equal at every position; nothing but the
answer changes. -/
def Obligations.MatchComparesKindsOnly : Prop :=
  ∀ (s : State) (candidate template : Message), ∃ v : Bool,
    exec (.matchMsgs candidate template) s = .next { s with sent := s.sent ++ [.verdict v] }
    ∧ (v = true ↔ candidate.length = template.length
        ∧ ∀ (k : Nat) (x y : Element), candidate[k]? = some x → template[k]? = some y → x.kind = y.kind)

/-- R153: MATCH is true exactly when the sequences of kinds are equal, and so is an equivalence. -/
def Obligations.MatchIsEquivalence : Prop :=
  (∀ (s : State) (a b : Message), exec (.matchMsgs a b) s = .next { s with sent := s.sent ++ [.verdict true] }
    ↔ a.map Element.kind = b.map Element.kind)
  ∧ (∀ (s : State) (a : Message), exec (.matchMsgs a a) s = .next { s with sent := s.sent ++ [.verdict true] })
  ∧ (∀ (s : State) (a b : Message), exec (.matchMsgs a b) s = exec (.matchMsgs b a) s)
  ∧ (∀ (s : State) (a b c : Message),
      exec (.matchMsgs a b) s = .next { s with sent := s.sent ++ [.verdict true] } →
      exec (.matchMsgs b c) s = .next { s with sent := s.sent ++ [.verdict true] } →
      exec (.matchMsgs a c) s = .next { s with sent := s.sent ++ [.verdict true] })

/-- R81: `poll <bytes>` is `feed <bytes>` followed by `try`; `drain` is `try` repeated until it answers `None`. Both
complete in every state. -/
def Obligations.AbbreviationsExpand : Prop :=
  (∀ (s : State) (chunk : List Byte), ∃ u t,
    exec (.feed chunk) s = .next u ∧ exec .tryDecode u = .next t ∧ exec (.poll chunk) s = .next t)
  ∧ (∀ s : State, ∃ u t, exec .tryDecode s = .next u ∧ exec .drain s = .next t
      ∧ (u.sent = s.sent ++ [.decoded none] → t = u)
      ∧ (u.sent ≠ s.sent ++ [.decoded none] → exec .drain u = .next t))

/-- R81, R96: drain is TRY_DECODE one time after another, as often as it yields a message and once more: it answers
those messages in the order TRY_DECODE yields them, then one `None`, and leaves a backlog of which a further `try`
answers `None` and changes nothing. -/
def Obligations.DrainEmptiesTheBacklogOfFrames : Prop :=
  ∀ s : State, ∃ (t : State) (ms : List Message),
    exec .drain s = .next t
    ∧ execAll (List.replicate (ms.length + 1) .tryDecode) s = .next t
    ∧ t = { s with bl := t.bl, sent := s.sent ++ ms.map (fun m => .decoded (some m)) ++ [.decoded none] }
    ∧ exec .tryDecode t = .next { t with sent := t.sent ++ [.decoded none] }

/-! ### The instructions a command is made of on the ports -/

/-- R93, R94: the start scan recognises the byte `B_START` and no other, and START marks its index; the end scan
recognises `B_END` and no other, and END marks its index, from where DecodeSpan begins at the span's first byte. -/
def Obligations.DelimitersMarkTheFrame : Prop :=
  (∀ (c : Cfg) (b : Byte), decode c (.startScan b) = .ok .startDelim ↔ b = c.bStart)
  ∧ (∀ (c : Cfg) (b : Byte), decode c (.endScan b) = .ok .endDelim ↔ b = c.bEnd)
  ∧ (∀ s : State, exec .startDelim s = .next { s with
      stage := .scanEnd
      work := { s.work with startIdx := s.work.cursor, cursor := s.work.cursor + 1 } })
  ∧ (∀ s : State, exec .endDelim s = .next { s with
      stage := .items
      work := { s.work with endIdx := s.work.cursor, cursor := 0, msg := [] } })

/-- R124, R128, R129: a tag with at least 4 bytes after it is the numeric item of its kind, with the word assembled
little-endian from those bytes whatever they are; it emits that element and advances the cursor by 5. -/
def Obligations.NumericItemsEmitTheirWord : Prop :=
  (∀ (c : Cfg) (b1 b2 b3 b4 : Byte) (rest : List Byte) (w : Word),
    w.toNat = b1.toNat + b2.toNat * 2 ^ 8 + b3.toNat * 2 ^ 16 + b4.toNat * 2 ^ 24 →
    decode c (.itemHead (c.bFloat :: b1 :: b2 :: b3 :: b4 :: rest)) = .ok (.f32Item w)
    ∧ decode c (.itemHead (c.bUint :: b1 :: b2 :: b3 :: b4 :: rest)) = .ok (.u32Item w)
    ∧ decode c (.itemHead (c.bInt :: b1 :: b2 :: b3 :: b4 :: rest)) = .ok (.i32Item w))
  ∧ (∀ (s : State) (w : Word),
    exec (.f32Item w) s = .next { s with
      work := { s.work with msg := s.work.msg ++ [.f32 w], cursor := s.work.cursor + 5 } }
    ∧ exec (.u32Item w) s = .next { s with
      work := { s.work with msg := s.work.msg ++ [.u32 w], cursor := s.work.cursor + 5 } }
    ∧ exec (.i32Item w) s = .next { s with
      work := { s.work with msg := s.work.msg ++ [.i32 w], cursor := s.work.cursor + 5 } })

/-- R125: a tag with fewer than 4 bytes after it is a truncated item: one placeholder, and the cursor goes to the
span's end, so that decoding of the span ends there. That TRUNC.ITEM does the same outside R125's operand (a head byte that is no tag,
or 4 and more bytes after it) is the model's choice (notes/assumptions/13.md): no decoding gives it. -/
def Obligations.TruncatedItemEndsTheSpan : Prop :=
  (∀ (c : Cfg) (tag : Byte) (rest : List Byte), c.isTag tag = true → rest.length < 4 →
    decode c (.itemHead (tag :: rest)) = .ok (.truncItem tag rest)
    ∧ decodeSpan c (tag :: rest) = [.code c.bNone])
  ∧ (∀ (s : State) (tag : Byte) (rest : List Byte),
    exec (.truncItem tag rest) s = .next { s with
      work := { s.work with msg := s.work.msg ++ [.code s.cfg.bNone], cursor := s.span.length } })

/-- R122, R123: a head byte in DEF that is no tag is a CODE item and emits `Code` of it; one outside DEF is an unknown
byte and emits `Code(NONE)`; both advance the cursor by 1, whatever follows. That CODE.ITEM also runs with a byte
outside R123's operand (one outside DEF, which emits the placeholder, or a tag), and UNKNOWN.BYTE with a byte of DEF, is
the model's choice (notes/assumptions/13.md): no decoding gives either. -/
def Obligations.HeadBytesEmitOneCode : Prop :=
  (∀ (c : Cfg) (b : Byte) (rest : List Byte), c.isDef b = true → c.isTag b = false →
    decode c (.itemHead (b :: rest)) = .ok (.codeItem b))
  ∧ (∀ (c : Cfg) (b : Byte) (rest : List Byte), c.isDef b = false →
    decode c (.itemHead (b :: rest)) = .ok (.unknownByte b))
  ∧ (∀ (s : State) (b : Byte),
    exec (.codeItem b) s = .next { s with
      work := { s.work with
        msg := s.work.msg ++ [.code (if s.cfg.isDef b then b else s.cfg.bNone)]
        cursor := s.work.cursor + 1 } })
  ∧ (∀ (s : State) (b : Byte),
    exec (.unknownByte b) s = .next { s with
      work := { s.work with msg := s.work.msg ++ [.code s.cfg.bNone], cursor := s.work.cursor + 1 } })

/-- R132, R137, R138, R139: one element of ENCODE's operand: its item after the bytes so far, and the next position;
nothing else changes. A `Code` has a byte of DEF (R134). -/
def Obligations.RecordsEncodeTheirItem : Prop :=
  (∀ (s : State) (b : Byte), s.cfg.isDef b = true →
    exec (.encCode b) s = .next { s with
      work := { s.work with outBytes := s.work.outBytes ++ [b], pos := s.work.pos + 1 } })
  ∧ (∀ (s : State) (w : Word),
    exec (.encF32 w) s = .next { s with
      work := { s.work with
        outBytes := s.work.outBytes ++ [s.cfg.bFloat, w.extractLsb' 0 8, w.extractLsb' 8 8, w.extractLsb' 16 8,
          w.extractLsb' 24 8]
        pos := s.work.pos + 1 } }
    ∧ exec (.encU32 w) s = .next { s with
      work := { s.work with
        outBytes := s.work.outBytes ++ [s.cfg.bUint, w.extractLsb' 0 8, w.extractLsb' 8 8, w.extractLsb' 16 8,
          w.extractLsb' 24 8]
        pos := s.work.pos + 1 } }
    ∧ exec (.encI32 w) s = .next { s with
      work := { s.work with
        outBytes := s.work.outBytes ++ [s.cfg.bInt, w.extractLsb' 0 8, w.extractLsb' 8 8, w.extractLsb' 16 8,
          w.extractLsb' 24 8]
        pos := s.work.pos + 1 } })

/-! ### A step runs the decoded instruction -/

/-- With no command in progress on the ports, the host's next act is taken whole: a command is the instruction its
opcode and operands decode to (R76), run in the state with that act gone from the host's list; an abbreviation is its
instruction (R81); reset empties the backlog (R200). That the list of acts exists and comes before any edge is the
model's choice (notes/assumptions/5.md), and so are the values reset leaves in the transient registers
(notes/assumptions/14.md). -/
def Obligations.StepRunsTheHostsAct : Prop :=
  (∀ (s : State) (op : BitVec 2) (a b : List Record) (rest : List HostAct) (i : Instr),
    s.stage = .idle → s.script = .command op a b :: rest → decode s.cfg (.command op a b) = .ok i →
    step s = exec i { s with script := rest })
  ∧ (∀ (s : State) (chunk : List Byte) (rest : List HostAct),
    s.stage = .idle → s.script = .poll chunk :: rest → step s = exec (.poll chunk) { s with script := rest })
  ∧ (∀ (s : State) (rest : List HostAct),
    s.stage = .idle → s.script = .drain :: rest → step s = exec .drain { s with script := rest })
  ∧ (∀ (s : State) (rest : List HostAct),
    s.stage = .idle → s.script = .reset :: rest →
    step s = .next { s with script := rest, bl := [], work := Work.init })

/-- On the ports, an edge that does not reset runs the instruction decoded from the byte under a scan (R93, R94), from
the span at the cursor (R120), or from the record at the position in ENCODE's operand (R131), in the state with that
edge gone; a byte that is not the delimiter looked for is passed over, and a used-up scan answers `None`. The pace, one
byte, one item or one record an edge, and the stages are the model's choice (notes/assumptions/6.md): the spec gives no
cycle counts (R213). -/
def Obligations.StepRunsThePortsInstruction : Prop :=
  ∀ (s : State) (p : Pins) (edges : List Pins), s.edges = p :: edges → p.rst = false →
    (∀ b i, s.stage = .scanStart → s.bl[s.work.cursor]? = some b → decode s.cfg (.startScan b) = .ok i →
      step s = exec i { s with edges := edges })
    ∧ (∀ b i, s.stage = .scanEnd → s.bl[s.work.cursor]? = some b → decode s.cfg (.endScan b) = .ok i →
      step s = exec i { s with edges := edges })
    ∧ (∀ b, s.stage = .scanStart → s.bl[s.work.cursor]? = some b → b ≠ s.cfg.bStart →
      step s = .next { s with edges := edges, work := { s.work with cursor := s.work.cursor + 1 } })
    ∧ (∀ b, s.stage = .scanEnd → s.bl[s.work.cursor]? = some b → b ≠ s.cfg.bEnd →
      step s = .next { s with edges := edges, work := { s.work with cursor := s.work.cursor + 1 } })
    ∧ (s.stage = .scanStart ∨ s.stage = .scanEnd → s.bl[s.work.cursor]? = none →
      step s = .next { s with
        edges := edges, stage := .respond, work := { s.work with rspFlag := false, rBuf := [] } })
    ∧ (∀ i, s.stage = .items → decode s.cfg (.itemHead (s.span.drop s.work.cursor)) = .ok i →
      step s = exec i { s with edges := edges })
    ∧ (∀ r i, s.stage = .encoding → s.work.aBuf[s.work.pos]? = some r → decode s.cfg (.record r) = .ok i →
      step s = exec i { s with edges := edges })

/-- What the decoder reads from a pattern in its context, and every word of the opcode table, is run by the next step
where it is placed there (the model's own placement, notes/assumptions/2.md and 3.md). -/
def Obligations.PlacedWordIsRun : Prop :=
  (∀ (s : State) (f : Fetched) (i : Instr), decode s.cfg f = .ok i → ∃ t : State,
    step (s.place f) = exec i t ∧ t.cfg = s.cfg ∧ t.sent = s.sent ∧ t.script = s.script ∧ t.edges = s.edges)
  ∧ (∀ nbits w : Nat, ∃ i t, decodeTableWord nbits w = some i
    ∧ step (State.reset.withFetchWord nbits w) = exec i t ∧ t.cfg = State.reset.cfg)

/-! ### Encoding -/

/-- Words written out from the spec's encodings under T0 (R11): R76's opcodes, R75's kinds, R62's items, R69's
classes. -/
def Obligations.WordsDecodeToTheirInstruction : Prop :=
  decode Cfg.t0 (.command 0 [⟨0, 0x000000F0⟩, ⟨0, 0x00000020⟩, ⟨0, 0x000000F2⟩] []) = .ok (.feed [0xF0, 0x20, 0xF2])
  ∧ decode Cfg.t0 (.command 1 [] []) = .ok .tryDecode
  ∧ decode Cfg.t0 (.command 2 [⟨2, 0x000000F1⟩] []) = .ok (.encode [.u32 0xF1])
  ∧ decode Cfg.t0 (.command 3 [⟨0, 0x20⟩] [⟨1, 0⟩]) = .ok (.matchMsgs [.code 0x20] [.f32 0])
  ∧ decode Cfg.t0 (.startScan 0xF0) = .ok .startDelim
  ∧ decode Cfg.t0 (.endScan 0xF1) = .ok .endDelim
  ∧ decode Cfg.t0 (.itemHead [0xF2, 0x00, 0x00, 0x80, 0x3F]) = .ok (.f32Item 0x3F800000)
  ∧ decode Cfg.t0 (.itemHead [0xF3, 0xF0, 0xF2, 0xF3, 0xF4, 0x11]) = .ok (.u32Item 0xF4F3F2F0)
  ∧ decode Cfg.t0 (.itemHead [0xF4, 0x00, 0x00, 0x00, 0x80]) = .ok (.i32Item 0x80000000)
  ∧ decode Cfg.t0 (.itemHead [0xF3, 0x01, 0x02, 0x03]) = .ok (.truncItem 0xF3 [0x01, 0x02, 0x03])
  ∧ decode Cfg.t0 (.itemHead [0x20, 0x7E]) = .ok (.codeItem 0x20)
  ∧ decode Cfg.t0 (.itemHead [0x7E, 0x10]) = .ok (.unknownByte 0x7E)
  ∧ decode Cfg.t0 (.record ⟨0, 0x00000020⟩) = .ok (.encCode 0x20)
  ∧ decode Cfg.t0 (.record ⟨1, 0x3F800000⟩) = .ok (.encF32 0x3F800000)
  ∧ decode Cfg.t0 (.record ⟨2, 0x12345678⟩) = .ok (.encU32 0x12345678)
  ∧ decode Cfg.t0 (.record ⟨3, 0xFFFFFFFF⟩) = .ok (.encI32 0xFFFFFFFF)

/-- Decoding the words of a well-formed instruction gives the instruction, for every instruction, every operand and
every configuration. -/
def Obligations.DecodeEncodeAgree : Prop :=
  ∀ (c : Cfg) (i : Instr), i.wf c = true → decode c (encode c i) = .ok i

/-- R69: the rows of the item-head table are disjoint and cover every byte and every `r`: the item recognised, the
bytes consumed and the element emitted, row by row. -/
def Obligations.ItemHeadTable : Prop :=
  ∀ (c : Cfg) (b : Byte) (rest : List Byte), ∃ i,
    decode c (.itemHead (b :: rest)) = .ok i
    ∧ (b = c.bFloat → 4 ≤ rest.length → ∃ w, i = .f32Item w ∧ i.itemLength = 5 ∧ itemElement c i = some (.f32 w))
    ∧ (b = c.bUint → 4 ≤ rest.length → ∃ w, i = .u32Item w ∧ i.itemLength = 5 ∧ itemElement c i = some (.u32 w))
    ∧ (b = c.bInt → 4 ≤ rest.length → ∃ w, i = .i32Item w ∧ i.itemLength = 5 ∧ itemElement c i = some (.i32 w))
    ∧ (b = c.bFloat ∨ b = c.bUint ∨ b = c.bInt → rest.length < 4 →
        i = .truncItem b rest ∧ i.itemLength = 1 + rest.length ∧ itemElement c i = some (.code c.bNone))
    ∧ (c.isDef b = true → ¬(b = c.bFloat ∨ b = c.bUint ∨ b = c.bInt) →
        i = .codeItem b ∧ i.itemLength = 1 ∧ itemElement c i = some (.code b))
    ∧ (c.isDef b = false → i = .unknownByte b ∧ i.itemLength = 1 ∧ itemElement c i = some (.code c.bNone))

/-- R75: the element record: the variant by `kind`, the word in `data`, a code in `data[7:0]` with `data[31:8]` zero on
outputs and ignored on inputs; a byte's kind is ignored on inputs; bit 0 of the word is bit 0 of its first byte. -/
def Obligations.ElementRecordLayout : Prop :=
  (∀ b : Byte, (Element.code b).record.kind = 0#2 ∧ (Element.code b).record.data.toNat = b.toNat)
  ∧ (∀ w : Word, (Element.f32 w).record = ⟨1#2, w⟩ ∧ (Element.u32 w).record = ⟨2#2, w⟩
      ∧ (Element.i32 w).record = ⟨3#2, w⟩)
  ∧ (∀ (high : BitVec 24) (b : Byte), (Record.mk 0#2 (high ++ b)).element = .code b)
  ∧ (∀ w : Word, (Record.mk 1#2 w).element = .f32 w ∧ (Record.mk 2#2 w).element = .u32 w
      ∧ (Record.mk 3#2 w).element = .i32 w)
  ∧ (∀ (kind : BitVec 2) (high : BitVec 24) (b : Byte), (Record.mk kind (high ++ b)).byte = b)
  ∧ (∀ b : Byte, (byteRecord b).kind = 0#2 ∧ (byteRecord b).data.toNat = b.toNat)
  ∧ (∀ w : Word, ∃ b, (bytesOfWord w)[0]? = some b ∧ b.getLsbD 0 = w.getLsbD 0)

/-- R65 (R14, R43): the payload is little-endian. Reading the 4 bytes after the tag as one number gives the word; the
item decoder reads the same word, whatever follows. -/
def Obligations.PayloadIsLittleEndian : Prop :=
  ∀ (c : Cfg) (tag b1 b2 b3 b4 : Byte) (rest : List Byte), c.isTag tag = true → ∃ w : Word,
    memRead (tag :: b1 :: b2 :: b3 :: b4 :: rest) 1 4 = some w.toNat
    ∧ w.toNat = b1.toNat + b2.toNat * 256 + b3.toNat * 256 ^ 2 + b4.toNat * 256 ^ 3
    ∧ [w.extractLsb' 0 8, w.extractLsb' 8 8, w.extractLsb' 16 8, w.extractLsb' 24 8] = [b1, b2, b3, b4]
    ∧ decode c (.itemHead (tag :: b1 :: b2 :: b3 :: b4 :: rest)) = .ok (numericItem c tag w)

/-- R76: the response flag and the result stream of every command's response. -/
def Obligations.ResponseBeats : Prop :=
  ∀ op : BitVec 2,
    Response.done.taken op = [.response op true]
    ∧ (Response.decoded none).taken op = [.response op false]
    ∧ (∀ m, (Response.decoded (some m)).taken op
        = .response op true :: (resultBeats (m.map Element.record)).map .result)
    ∧ (∀ bs, (Response.bytes bs).taken op = .response op true :: (resultBeats (bs.map byteRecord)).map .result)
    ∧ (∀ v, (Response.verdict v).taken op = [.response op v])

/-- R78: a sequence of `n >= 1` values is `n` beats, in order, with `last` on the `n`-th alone; the empty sequence is
one null beat. -/
def Obligations.SequencesAreBeats : Prop :=
  resultBeats [] = [.null]
  ∧ ∀ rs : List Record, rs ≠ [] →
      (resultBeats rs).length = rs.length
      ∧ ∀ (k : Nat) (r : Record), rs[k]? = some r → (resultBeats rs)[k]? = some (.value (decide (k + 1 = rs.length)) r)

/-- R29, R30: the lookup is total and answers a code, the byte itself or `NONE`; it inverts `byte_of` on every code,
`NONE` included; an unknown byte is never taken for a tag. -/
def Obligations.CodeTableLookup : Prop :=
  ∀ c : Cfg,
    (∀ b, c.isDef b = true → c.codeOf b = b) ∧ (∀ b, c.isDef b = false → c.codeOf b = c.bNone)
    ∧ (∀ code, c.isDef code = true → c.codeOf (c.byteOf code) = code) ∧ c.codeOf (c.byteOf c.bNone) = c.bNone
    ∧ (∀ b, c.isTag b = true ↔ b = c.bFloat ∨ b = c.bUint ∨ b = c.bInt)
    ∧ (∀ b, c.isStructural b = true ↔ b = c.bStart ∨ b = c.bEnd ∨ b = c.bFloat ∨ b = c.bUint ∨ b = c.bInt)
    ∧ (∀ b, c.isDef b = false → c.isTag (c.codeOf b) = false)

/-- R80: lines of the textual syntax and the acts they stand for, under T0. -/
def Obligations.ScriptLinesReadAsActs : Prop :=
  parseLine Cfg.t0 "feed  F0 20 F1                       ; FEED, chunk in hex bytes"
    = some [.command 0 [⟨0, 0xF0⟩, ⟨0, 0x20⟩, ⟨0, 0xF1⟩] []]
  ∧ parseLine Cfg.t0 "feed" = some [.command 0 [] []]
  ∧ parseLine Cfg.t0 "try" = some [.command 1 [] []]
  ∧ parseLine Cfg.t0 "enc   [Code(PID), F32(1.0)]" = some [.command 2 [⟨0, 0x20⟩, ⟨1, 0x3F800000⟩] []]
  ∧ parseLine Cfg.t0 "match [Code(PID), F32(1.0)] , [Code(SET), F32(9.9)]"
    = some [.command 3 [⟨0, 0x20⟩, ⟨1, 0x3F800000⟩] [⟨0, 0x10⟩, ⟨1, 0x411E6666⟩]]

/-! ### The decoder's and the encoder's laws -/

/-- R120: DecodeSpan, item by item, on every span. -/
def Obligations.DecodeSpanItemByItem : Prop :=
  ∀ c : Cfg,
    decodeSpan c [] = []
    ∧ (∀ (b1 b2 b3 b4 : Byte) (rest : List Byte) (w : Word),
        w.toNat = b1.toNat + b2.toNat * 2 ^ 8 + b3.toNat * 2 ^ 16 + b4.toNat * 2 ^ 24 →
        decodeSpan c (c.bFloat :: b1 :: b2 :: b3 :: b4 :: rest) = .f32 w :: decodeSpan c rest
        ∧ decodeSpan c (c.bUint :: b1 :: b2 :: b3 :: b4 :: rest) = .u32 w :: decodeSpan c rest
        ∧ decodeSpan c (c.bInt :: b1 :: b2 :: b3 :: b4 :: rest) = .i32 w :: decodeSpan c rest)
    ∧ (∀ (tag : Byte) (rest : List Byte), c.isTag (c.codeOf tag) = true → rest.length < 4 →
        decodeSpan c (tag :: rest) = [.code c.bNone])
    ∧ (∀ (b : Byte) (rest : List Byte), c.isTag (c.codeOf b) = false →
        decodeSpan c (b :: rest) = .code (c.codeOf b) :: decodeSpan c rest)

/-- R126: for a span of `n` bytes, between `ceil(n / 5)` and `n` elements. -/
def Obligations.MessageLengthBounds : Prop :=
  ∀ (c : Cfg) (span : List Byte),
    (decodeSpan c span).length ≤ span.length ∧ span.length ≤ 5 * (decodeSpan c span).length

/-- R136: the round trip, exactly. For well-typed elements: the two pure functions invert each other if and only if no
`Code` holds a tag; and from an empty backlog, where the frame is shorter than the ceiling, FEED of ENCODE's result
and TRY_DECODE answer the elements and leave the backlog empty if and only if, besides, no byte of the encoded items
equals `B_END`. -/
def Obligations.RoundTripExactly : Prop :=
  (∀ (c : Cfg) (els : Message), wellTyped c els →
    (decodeSpan c (encodeItems c els) = els ↔ noTagCode c els))
  ∧ (∀ (s : State) (els : Message), wellTyped s.cfg els → s.bl = [] →
      (encodeFrame s.cfg els).length < s.cfg.ceiling →
      (execAll [.feed (encodeFrame s.cfg els), .tryDecode] s
          = .next { s with sent := s.sent ++ [.done, .decoded (some els)] }
        ↔ noEndByte s.cfg els ∧ noTagCode s.cfg els))

/-- R140: encoding what was decoded gives the span back if and only if no item of its parse degraded: every head in
DEF, no truncated item; an unknown byte and a truncated item come back as `B_NONE`. -/
def Obligations.ReencodingExactly : Prop :=
  (∀ (c : Cfg) (span : List Byte),
    encodeItems c (decodeSpan c span) = span ↔ ∀ i ∈ parse c span, degrades i = false)
  ∧ (∀ (c : Cfg) (b : Byte) (rest : List Byte), c.isDef b = false →
    encodeItems c (decodeSpan c (b :: rest)) = c.bNone :: encodeItems c (decodeSpan c rest))
  ∧ (∀ (c : Cfg) (tag : Byte) (rest : List Byte), c.isTag tag = true → rest.length < 4 →
    encodeItems c (decodeSpan c (tag :: rest)) = [c.bNone])

/-- R135: the length of ENCODE's result. -/
def Obligations.EncodedLength : Prop :=
  ∀ (s t : State) (els : Message), exec (.encode els) s = .next t → ∃ bs : List Byte,
    t.sent = s.sent ++ [.bytes bs]
    ∧ bs.length = 2 + els.countP (fun el => decide (el.kind = .code)) + 5 * els.countP (fun el => decide (el.kind ≠ .code))

/-- R63, R136: a wire-safe sequence meets the conditions of the round trip. -/
def Obligations.WireSafeRoundTrips : Prop :=
  ∀ (s : State) (els : Message), wellTyped s.cfg els → wireSafe s.cfg els → s.bl = [] →
    (encodeFrame s.cfg els).length < s.cfg.ceiling →
    execAll [.feed (encodeFrame s.cfg els), .tryDecode] s
      = .next { s with sent := s.sent ++ [.done, .decoded (some els)] }

/-! ### The backlog's laws -/

/-- R100: chunks fed one after the other leave the backlog of the chunks fed at once, where the total stays below the
ceiling; a TRY_DECODE that answers `None` in between changes nothing. -/
def Obligations.ChunkingLaw : Prop :=
  (∀ (s : State) (chunks : List (List Byte)), s.bl.length + chunks.flatten.length < s.cfg.ceiling → ∃ t u,
    execAll (chunks.map .feed) s = .next t ∧ exec (.feed chunks.flatten) s = .next u
    ∧ t.bl = s.bl ++ chunks.flatten ∧ u.bl = s.bl ++ chunks.flatten)
  ∧ (∀ s t : State, exec .tryDecode s = .next t → t.sent = s.sent ++ [.decoded none] → t.bl = s.bl)

/-- R48: a TRY_DECODE that answers `None` changes nothing but the answers, and repeating it answers `None`
again. -/
def Obligations.NoneLeavesTheBacklog : Prop :=
  ∀ s t : State, exec .tryDecode s = .next t → t.sent = s.sent ++ [.decoded none] →
    t = { s with sent := s.sent ++ [.decoded none] }
    ∧ exec .tryDecode t = .next { t with sent := t.sent ++ [.decoded none] }

/-- R41: positions. After an append the old bytes keep their indices and the new ones follow; after an extraction that
found the end delimiter at index `e`, the byte that was at `e + 1 + k` is at `k`. -/
def Obligations.BacklogPositions : Prop :=
  (∀ (s t : State) (chunk : List Byte), s.bl.length + chunk.length < s.cfg.ceiling → exec (.feed chunk) s = .next t →
    (∀ k, k < s.bl.length → t.readByte k = s.readByte k)
    ∧ (∀ k, t.readByte (s.bl.length + k) = chunk[k]?))
  ∧ (∀ (s t : State) (m : Message), exec .tryDecode s = .next t → t.sent = s.sent ++ [.decoded (some m)] →
    ∃ start e, first s.bl s.cfg.bStart 0 = some start ∧ first s.bl s.cfg.bEnd (start + 1) = some e
      ∧ ∀ k, t.readByte k = s.readByte (e + 1 + k))

/-- R101: two encoded frames in one FEED come out in order, then nothing. -/
def Obligations.MultiFrameLaw : Prop :=
  ∀ (s : State) (m1 m2 : Message), s.bl = [] →
    wellTyped s.cfg m1 → noEndByte s.cfg m1 → noTagCode s.cfg m1 →
    wellTyped s.cfg m2 → noEndByte s.cfg m2 → noTagCode s.cfg m2 →
    (encodeFrame s.cfg m1).length + (encodeFrame s.cfg m2).length < s.cfg.ceiling →
    execAll [.feed (encodeFrame s.cfg m1 ++ encodeFrame s.cfg m2), .tryDecode, .tryDecode, .tryDecode] s
      = .next { s with sent := s.sent ++ [.done, .decoded (some m1), .decoded (some m2), .decoded none] }

/-- R102: after a FEED whose total reaches the ceiling the backlog is empty and TRY_DECODE answers `None`, whatever
backlog and chunk contained. -/
def Obligations.OverflowLaw : Prop :=
  ∀ (s : State) (chunk : List Byte), s.cfg.ceiling ≤ s.bl.length + chunk.length →
    execAll [.feed chunk, .tryDecode] s = .next { s with bl := [], sent := s.sent ++ [.done, .decoded none] }

/-- R35: the phases: no start; a first start and no end after it; a first start and an end after it. TRY_DECODE answers
`Some` exactly in the last. -/
def Obligations.SomeExactlyWhenFrameReady : Prop :=
  ∀ s : State, ∃ (t : State) (m : Option Message), exec .tryDecode s = .next t ∧ t.sent = s.sent ++ [.decoded m]
    ∧ (m.isSome = true ↔ syncPhase s.cfg s.bl = .frameReady)
    ∧ (syncPhase s.cfg s.bl = .hunting ↔ s.cfg.bStart ∉ s.bl)
    ∧ (syncPhase s.cfg s.bl = .inFrame
      ↔ ∃ pre rest, s.bl = pre ++ s.cfg.bStart :: rest ∧ s.cfg.bStart ∉ pre ∧ s.cfg.bEnd ∉ rest)
    ∧ (syncPhase s.cfg s.bl = .frameReady
      ↔ ∃ pre span post, s.bl = pre ++ s.cfg.bStart :: (span ++ s.cfg.bEnd :: post) ∧ s.cfg.bStart ∉ pre
        ∧ s.cfg.bEnd ∉ span)

/-- R97: under the invariant, a message has at most `CEILING - 3` elements. -/
def Obligations.MessageFitsTheCeiling : Prop :=
  ∀ (s t : State) (m : Message), s.backlogOk → exec .tryDecode s = .next t → t.sent = s.sent ++ [.decoded (some m)] →
    m.length ≤ s.cfg.ceiling - 3

/-- R22: how an instruction changes the backlog: FEED appends or clears, an extraction keeps a suffix, and no other
instruction changes it; no byte is overwritten, reordered or inserted. -/
def Obligations.BacklogChangesInThreeWays : Prop :=
  ∀ (i : Instr) (s t : State), exec i s = .next t →
    (∀ chunk, i = .feed chunk → t.bl = [] ∨ t.bl = s.bl ++ chunk)
    ∧ (∀ chunk, i = .poll chunk → t.bl <:+ s.bl ++ chunk)
    ∧ (i = .tryDecode ∨ i = .drain → t.bl <:+ s.bl)
    ∧ ((∀ chunk, i ≠ .feed chunk) → (∀ chunk, i ≠ .poll chunk) → i ≠ .tryDecode → i ≠ .drain → t.bl = s.bl)

/-- R34: a command's response and its effect on the backlog depend on the backlog and the configuration alone. -/
def Obligations.ResponsesDependOnTheBacklogAlone : Prop :=
  ∀ (i : Instr) (s1 s2 t1 : State), s1.cfg = s2.cfg → s1.bl = s2.bl → exec i s1 = .next t1 →
    ∃ t2, exec i s2 = .next t2 ∧ t2.bl = t1.bl
      ∧ ∃ answers, t1.sent = s1.sent ++ answers ∧ t2.sent = s2.sent ++ answers

/-- R130, R150: ENCODE and MATCH neither read nor write the backlog: in two states that agree on the configuration
they answer the same. -/
def Obligations.EncodeAndMatchArePure : Prop :=
  ∀ (i : Instr) (s1 s2 t1 : State),
    (∃ els, i = .encode els) ∨ (∃ candidate template, i = .matchMsgs candidate template) → s1.cfg = s2.cfg →
    exec i s1 = .next t1 → ∃ r, t1 = { s1 with sent := s1.sent ++ [r] }
      ∧ exec i s2 = .next { s2 with sent := s2.sent ++ [r] }

/-! ### Frames -/

/-- What each shape of instruction leaves alone. A command changes the backlog and the responses alone; an instruction
inside a command on the ports changes the stage and the transient registers alone, and an item or a record not even the
stage; no instruction touches the configuration, the host's acts and pins, or the beats the host has taken. -/
def Obligations.InstructionFrames : Prop :=
  (∀ (i : Instr) (s t : State), exec i s = .next t →
    t.cfg = s.cfg ∧ t.script = s.script ∧ t.edges = s.edges ∧ t.taken = s.taken)
  ∧ (∀ (s t : State) (chunk : List Byte) (els x y : Message),
      exec (.feed chunk) s = .next t ∨ exec .tryDecode s = .next t ∨ exec (.encode els) s = .next t
        ∨ exec (.matchMsgs x y) s = .next t ∨ exec (.poll chunk) s = .next t ∨ exec .drain s = .next t →
      t.stage = s.stage ∧ t.work = s.work)
  ∧ (∀ (s t : State) (w : Word) (b : Byte) (rest : List Byte),
      exec (.f32Item w) s = .next t ∨ exec (.u32Item w) s = .next t ∨ exec (.i32Item w) s = .next t
        ∨ exec (.truncItem b rest) s = .next t ∨ exec (.codeItem b) s = .next t ∨ exec (.unknownByte b) s = .next t →
      t = { s with work := { s.work with msg := t.work.msg, cursor := t.work.cursor } })
  ∧ (∀ (s t : State) (w : Word) (b : Byte),
      exec (.encCode b) s = .next t ∨ exec (.encF32 w) s = .next t ∨ exec (.encU32 w) s = .next t
        ∨ exec (.encI32 w) s = .next t →
      t = { s with work := { s.work with outBytes := t.work.outBytes, pos := t.work.pos } })
  ∧ (∀ s t : State, exec .startDelim s = .next t ∨ exec .endDelim s = .next t →
      t.bl = s.bl ∧ t.sent = s.sent ∧ (∀ k, t.readByte k = s.readByte k))

/-- R27: no step writes the configuration. -/
def Obligations.ConfigurationNeverChanges : Prop :=
  ∀ s t : State, step s = .next t → t.cfg = s.cfg

/-! ### Reset and start-up -/

/-- R37, R200: after reset, under every configuration: the backlog empty, no command in progress. The values of the
transient registers are the model's choice (notes/assumptions/14.md). -/
def Obligations.ResetLeavesAnEmptyBacklog : Prop :=
  ∀ c : Cfg, (State.resetWith c).cfg = c ∧ (State.resetWith c).bl = [] ∧ (State.resetWith c).blen = 0
    ∧ (State.resetWith c).stage = .idle ∧ (State.resetWith c).work = Work.init

/-- R200, R201: an edge with `rst` clears the backlog and abandons a command in progress, wherever it had got to: no
beat is taken and none is offered on that edge, nothing is answered, the configuration is untouched, and with `rst`
released `cmd_ready` is 1. That `cmd_ready` itself reads 0 on the edge with `rst` is the model's choice
(notes/assumptions/10.md), and so are the values of the transient registers after it (notes/assumptions/14.md). -/
def Obligations.ResetAbandonsTheCommand : Prop :=
  ∀ (s : State) (p : Pins) (edges : List Pins), s.edges = p :: edges → p.rst = true →
    (s.stage = .idle → s.script = []) →
    step s = .next { s with bl := [], stage := .idle, work := Work.init, edges := edges }
    ∧ s.outputs true = ⟨false, false, false, none, none⟩
    ∧ ({ s with bl := [], stage := .idle, work := Work.init, edges := edges } : State).outputs false
      = ⟨true, false, false, none, none⟩

/-- R204: an invalid configuration is refused before SFS starts; a valid one starts from reset. -/
def Obligations.InvalidConfigurationIsRefused : Prop :=
  ∀ d : CfgData,
    (d.ceiling < 3 ∨ ¬[d.bStart, d.bEnd, d.bFloat, d.bUint, d.bInt, d.bNone].Nodup
        ∨ (∃ b ∈ [d.bStart, d.bEnd, d.bFloat, d.bUint, d.bInt, d.bNone], d.isDef b = false) →
      State.boot d = .refused .schemaMismatch)
    ∧ (∀ c : Cfg, c.toCfgData = d → State.boot d = .next (State.resetWith c))

/-! ### Invariants -/

/-- R21 and the transient registers' own invariant: every step keeps it. -/
def Obligations.EveryStepKeepsTheInvariant : Prop :=
  ∀ s t : State, s.Inv → step s = .next t → t.Inv

/-- R21: the invariant holds after reset, under every configuration. -/
def Obligations.ResetMeetsTheInvariant : Prop :=
  (∀ c : Cfg, (State.resetWith c).Inv) ∧ State.reset.Inv

/-- R21, R23, R106: after every step the length of the backlog stays below the ceiling, and so its counter never
overflows its `ceil(log2(CEILING))` bits. -/
def Obligations.LengthCounterFits : Prop :=
  ∀ s t : State, s.Inv → step s = .next t → t.blen < t.cfg.ceiling ∧ t.blen < 2 ^ blenWidth t.cfg

/-- R170: the two refusals and no other stop. No step and no start-up ends in a fault. A step is refused only for the
ill-typed `Code` of an ENCODE (R134), taken whole or on the ports, and answers a next state otherwise; start-up is
refused only for an invalid configuration (R204). That the refusal on the ports falls on the edge that would encode the
record is the model's choice (notes/assumptions/18.md). -/
def Obligations.OnlyTwoRefusals : Prop :=
  (∀ s : State, (∃ t, step s = .next t)
    ∨ (step s = .refused .illTypedCode
      ∧ ((∃ a b rest, s.stage = .idle ∧ s.script = .command 2 a b :: rest
            ∧ ∃ x ∈ a, x.element.wellTyped s.cfg = false)
          ∨ (s.stage = .encoding ∧ ∃ x, s.work.aBuf[s.work.pos]? = some x ∧ x.element.wellTyped s.cfg = false))))
  ∧ (∀ d : CfgData, (∃ t, State.boot d = .next t) ∨ (State.boot d = .refused .schemaMismatch ∧ d.valid = false))

/-! ### The port level -/

/-- R77, R78: the handshakes of the command, the response and the result. On an edge that does not reset, a command is accepted exactly where `cmd_valid` and
`cmd_ready` are 1; the host takes the response beat exactly where it is offered and `rsp_ready` is 1, and a result beat
exactly where it is offered and `r_ready` is 1; `cmd_ready` is 0 while a command is in progress. -/
def Obligations.HandshakesTransferBeats : Prop :=
  ∀ (s t : State) (p : Pins) (edges : List Pins), s.edges = p :: edges → p.rst = false → s.script = [] → s.Inv →
    step s = .next t →
    t.taken = s.taken
      ++ (if p.rspReady then ((s.outputs false).rsp.map fun x => Taken.response x.1 x.2).toList else [])
      ++ (if p.rReady then ((s.outputs false).r.map Taken.result).toList else [])
    ∧ ((s.outputs false).cmdReady = true ↔ s.stage = .idle)
    ∧ ((s.outputs false).cmdReady = true → p.cmdValid = true → t.work.op = p.cmdOp ∧ t.stage ≠ .idle)
    ∧ ((s.outputs false).cmdReady = true → p.cmdValid = false → t = { s with edges := edges })
    ∧ ((s.outputs false).cmdReady = false → t.stage ≠ .idle → t.work.op = s.work.op)

/-- R78: the operand streams, one edge that does not reset, for any host. A beat is taken exactly where `valid` and
`ready` are 1, on A and on B apart from each other: no beat is taken before the operands stage, after it, or after the
last of its stream. A value goes after the values taken before it (in FEED, as R33 has it, a byte is counted, and stored
until the chunk has pushed the length to the ceiling), and `last` ends its stream. A null beat with `last` and nothing
taken before it ends the stream. Two things here are the model's choice. First (notes/assumptions/8.md), of a null beat
that is not the whole of an empty sequence: that it is taken and adds no value, where U14 says only that its kind and
data are ignored; whether it ends its stream is free, and nothing is said of it. Second (notes/assumptions/6.md), the
pace: that `ready` stays up through the operands stage, and that the command leaves that stage on the very edge on which
the last of the streams it needs ends. -/
def Obligations.OperandStreamsTransferBeats : Prop :=
  (∀ s : State, s.stage ≠ .operands → (s.outputs false).aReady = false ∧ (s.outputs false).bReady = false)
  ∧ ∀ (s : State) (p : Pins) (edges : List Pins), s.edges = p :: edges → p.rst = false → s.stage = .operands →
    ((s.outputs false).aReady = true ↔ s.work.op ≠ 1 ∧ s.work.aDone = false)
    ∧ ((s.outputs false).bReady = true ↔ s.work.op = 3 ∧ s.work.bDone = false)
    ∧ ∃ t : State, step s = .next t
      ∧ t = { s with
          edges := edges
          stage := t.stage
          work := { s.work with
            aBuf := t.work.aBuf, aDone := t.work.aDone, bBuf := t.work.bBuf, bDone := t.work.bDone
            feedCount := t.work.feedCount, feedOver := t.work.feedOver } }
      ∧ (p.aValid = false ∨ (s.outputs false).aReady = false →
          t.work.aBuf = s.work.aBuf ∧ t.work.aDone = s.work.aDone ∧ t.work.feedCount = s.work.feedCount
            ∧ t.work.feedOver = s.work.feedOver)
      ∧ (p.aValid = true → (s.outputs false).aReady = true → p.a.null = false →
          t.work.aDone = p.a.last
          ∧ (s.work.op ≠ 0 → t.work.aBuf = s.work.aBuf ++ [⟨p.a.kind, p.a.data⟩]
              ∧ t.work.feedCount = s.work.feedCount ∧ t.work.feedOver = s.work.feedOver)
          ∧ (s.work.op = 0 → s.work.feedOver = false → s.blen + s.work.feedCount + 1 < s.cfg.ceiling →
              t.work.aBuf = s.work.aBuf ++ [⟨p.a.kind, p.a.data⟩]
              ∧ t.work.feedCount = s.work.feedCount + 1 ∧ t.work.feedOver = false)
          ∧ (s.work.op = 0 → s.work.feedOver = false → s.cfg.ceiling ≤ s.blen + s.work.feedCount + 1 →
              t.work.aBuf = s.work.aBuf ∧ t.work.feedCount = s.work.feedCount + 1 ∧ t.work.feedOver = true)
          ∧ (s.work.op = 0 → s.work.feedOver = true →
              t.work.aBuf = s.work.aBuf ∧ t.work.feedCount = s.work.feedCount ∧ t.work.feedOver = true))
      ∧ (p.aValid = true → (s.outputs false).aReady = true → p.a.null = true →
          t.work.aBuf = s.work.aBuf ∧ t.work.feedCount = s.work.feedCount ∧ t.work.feedOver = s.work.feedOver
          ∧ (p.a.last = true → s.work.aBuf = [] → s.work.feedCount = 0 → t.work.aDone = true))
      ∧ (p.bValid = false ∨ (s.outputs false).bReady = false →
          t.work.bBuf = s.work.bBuf ∧ t.work.bDone = s.work.bDone)
      ∧ (p.bValid = true → (s.outputs false).bReady = true → p.b.null = false →
          t.work.bBuf = s.work.bBuf ++ [⟨p.b.kind, p.b.data⟩] ∧ t.work.bDone = p.b.last)
      ∧ (p.bValid = true → (s.outputs false).bReady = true → p.b.null = true →
          t.work.bBuf = s.work.bBuf ∧ (p.b.last = true → s.work.bBuf = [] → t.work.bDone = true))
      ∧ (t.stage = .operands ↔ (s.work.op ≠ 1 ∧ t.work.aDone = false) ∨ (s.work.op = 3 ∧ t.work.bDone = false))

/-- R7, R77, D10: the port level adds no behaviour. From a machine with no command in progress, a host that issues a
command, carries its operands at whatever pace and in whatever interleaving, and then takes what is offered, gets
exactly the beats of the transaction's response, and the backlog ends as the transaction leaves it, with no command in
progress. -/
def Obligations.PortLevelRefinesTransactionLevel : Prop :=
  ∀ (s t : State) (op : BitVec 2) (a b : List Record) (r : Response) (edges : List Pins),
    s.stage = .idle → s.work = Work.init → s.script = [] → s.backlogOk → carry op a b edges →
    exec (decodeCommand op a b) s = .next t → t.sent = s.sent ++ [r] →
    ∃ k, run (1 + edges.length + k)
        { s with edges := Pins.issue op :: edges ++ List.replicate k Pins.collect }
      = .next { s with bl := t.bl, edges := [], taken := s.taken ++ r.taken op }

/-- The backlog on the ports changes in one edge and never in part (R48, R77), or by reset; at every other edge it is as
it was. R77 asks that this be no later than the response beat; that it is the very edge that makes the response beat
ready is the model's choice (notes/assumptions/6.md). -/
def Obligations.BacklogChangesWithTheResponse : Prop :=
  ∀ (s t : State), s.script = [] → step s = .next t → t.bl = s.bl
    ∨ ((s.stage = .append ∨ s.stage = .items) ∧ t.stage = .respond ∧ t.work.op = s.work.op)
    ∨ (∃ p edges, s.edges = p :: edges ∧ p.rst = true ∧ t.bl = [])

/-- R33: the streams' values in FEED: the latch is set exactly where the chunk has pushed the length to the ceiling;
until then every byte is stored and counted. -/
def Obligations.FeedLatchSetsAtTheCeiling : Prop :=
  ∀ (ceiling blen : Nat) (chunk : List Record) (w : Work), w.feedOver = false → w.feedCount = w.aBuf.length →
    blen + w.aBuf.length < ceiling →
    ((chunk.foldl (fun acc r => acc.takeFeedByte ceiling blen r) w).feedOver = true
      ↔ ceiling ≤ blen + w.aBuf.length + chunk.length)
    ∧ (blen + w.aBuf.length + chunk.length < ceiling →
      (chunk.foldl (fun acc r => acc.takeFeedByte ceiling blen r) w).aBuf = w.aBuf ++ chunk
      ∧ (chunk.foldl (fun acc r => acc.takeFeedByte ceiling blen r) w).feedCount = w.aBuf.length + chunk.length)
end

