-- ==== Sys2Proof/Laws/Codec.lean ====
section
/-! SUPPORT. Lemmas about the code table, the payload bytes, the item decoder, DecodeSpan and the encoder. -/

namespace Sys2Proof

/-! ### The code table -/

theorem Cfg.distinguished_nodup (c : Cfg) : c.distinguished.Nodup := by
  have h := c.ok
  simp only [CfgData.valid, Bool.and_eq_true, decide_eq_true_eq] at h
  exact h.1.1.1.1.2

theorem Cfg.three_le_ceiling (c : Cfg) : 3 ≤ c.ceiling := by
  have h := c.ok
  simp only [CfgData.valid, Bool.and_eq_true, decide_eq_true_eq] at h
  exact h.1.1.1.1.1

theorem Cfg.distinguished_isDef (c : Cfg) : c.distinguished.all c.isDef = true := by
  have h := c.ok
  simp only [CfgData.valid, Bool.and_eq_true, decide_eq_true_eq] at h
  exact h.1.1.1.2

theorem Cfg.names_injective (c : Cfg) : (c.names.map Prod.snd).Nodup := by
  have h := c.ok
  simp only [CfgData.valid, Bool.and_eq_true, decide_eq_true_eq] at h
  exact h.1.2

theorem Cfg.isDef_of_distinguished (c : Cfg) {b : Byte} (h : b ∈ c.distinguished) : c.isDef b = true :=
  List.all_eq_true.mp c.distinguished_isDef b h

@[simp] theorem Cfg.isDef_bNone (c : Cfg) : c.isDef c.bNone = true :=
  c.isDef_of_distinguished (by simp [CfgData.distinguished])

@[simp] theorem Cfg.isDef_bStart (c : Cfg) : c.isDef c.bStart = true :=
  c.isDef_of_distinguished (by simp [CfgData.distinguished])

@[simp] theorem Cfg.isDef_bEnd (c : Cfg) : c.isDef c.bEnd = true :=
  c.isDef_of_distinguished (by simp [CfgData.distinguished])

theorem Cfg.isDef_of_isTag (c : Cfg) {b : Byte} (h : c.isTag b = true) : c.isDef b = true := by
  apply c.isDef_of_distinguished
  simp [Cfg.isTag] at h
  simp [CfgData.distinguished]
  tauto

@[simp] theorem Cfg.isTag_bNone (c : Cfg) : c.isTag c.bNone = false := by
  have h := c.distinguished_nodup
  simp [CfgData.distinguished] at h
  simp [Cfg.isTag]
  grind

@[simp] theorem Cfg.isTag_bStart (c : Cfg) : c.isTag c.bStart = false := by
  have h := c.distinguished_nodup
  simp [CfgData.distinguished] at h
  simp [Cfg.isTag]
  grind

@[simp] theorem Cfg.isTag_bFloat (c : Cfg) : c.isTag c.bFloat = true := by simp [Cfg.isTag]

@[simp] theorem Cfg.isTag_bUint (c : Cfg) : c.isTag c.bUint = true := by simp [Cfg.isTag]

@[simp] theorem Cfg.isTag_bInt (c : Cfg) : c.isTag c.bInt = true := by simp [Cfg.isTag]

theorem Cfg.bStart_ne_bEnd (c : Cfg) : c.bStart ≠ c.bEnd := by
  have h := c.distinguished_nodup
  simp [CfgData.distinguished] at h
  exact h.1.1

theorem Cfg.bUint_ne_bFloat (c : Cfg) : c.bUint ≠ c.bFloat := by
  have h := c.distinguished_nodup
  simp [CfgData.distinguished] at h
  exact Ne.symm h.2.2.1.1

theorem Cfg.bInt_ne_bFloat (c : Cfg) : c.bInt ≠ c.bFloat := by
  have h := c.distinguished_nodup
  simp [CfgData.distinguished] at h
  exact Ne.symm h.2.2.1.2.1

theorem Cfg.bInt_ne_bUint (c : Cfg) : c.bInt ≠ c.bUint := by
  have h := c.distinguished_nodup
  simp [CfgData.distinguished] at h
  exact Ne.symm h.2.2.2.1.1

theorem Cfg.bEnd_ne_tag (c : Cfg) : c.isTag c.bEnd = false := by
  have h := c.distinguished_nodup
  simp [CfgData.distinguished] at h
  simp [Cfg.isTag]
  grind

theorem Cfg.codeOf_of_isDef (c : Cfg) {b : Byte} (h : c.isDef b = true) : c.codeOf b = b := by
  simp [Cfg.codeOf, h]

theorem Cfg.codeOf_of_not_isDef (c : Cfg) {b : Byte} (h : c.isDef b = false) : c.codeOf b = c.bNone := by
  simp [Cfg.codeOf, h]

theorem Cfg.codeOf_of_isTag (c : Cfg) {b : Byte} (h : c.isTag b = true) : c.codeOf b = b :=
  c.codeOf_of_isDef (c.isDef_of_isTag h)

/-- The tag test on the looked-up code is the tag test on the byte: an unknown byte is never taken for a tag (R178). -/
@[simp] theorem Cfg.isTag_codeOf (c : Cfg) (b : Byte) : c.isTag (c.codeOf b) = c.isTag b := by
  by_cases h : c.isDef b = true
  · rw [c.codeOf_of_isDef h]
  · have ht : c.isTag b = false := by
      by_contra hc
      exact h (c.isDef_of_isTag (by simpa using hc))
    rw [c.codeOf_of_not_isDef (by simpa using h), c.isTag_bNone, ht]

/-- The code looked up is always a code (R29). -/
@[simp] theorem Cfg.isDef_codeOf (c : Cfg) (b : Byte) : c.isDef (c.codeOf b) = true := by
  unfold Cfg.codeOf
  split
  · assumption
  · exact c.isDef_bNone

/-! ### Payload bytes and records -/

@[simp] theorem bytesOfWord_length (w : Word) : (bytesOfWord w).length = 4 := rfl

theorem wordOfBytes_bytesOfWord (w : Word) :
    wordOfBytes (w.extractLsb' 0 8) (w.extractLsb' 8 8) (w.extractLsb' 16 8) (w.extractLsb' 24 8) = w := by
  apply BitVec.eq_of_getLsbD_eq
  intro i hi
  simp [wordOfBytes]
  grind

theorem bytesOfWord_wordOfBytes (b1 b2 b3 b4 : Byte) :
    bytesOfWord (wordOfBytes b1 b2 b3 b4) = [b1, b2, b3, b4] := by
  simp only [bytesOfWord, wordOfBytes, List.cons.injEq, and_true]
  refine ⟨?_, ?_, ?_, ?_⟩ <;>
    (apply BitVec.eq_of_getLsbD_eq
     intro i hi
     simp [hi]
     try grind)

/-- R65 as a sum: `w = span[i+1] + span[i+2] * 2^8 + span[i+3] * 2^16 + span[i+4] * 2^24`. -/
theorem wordOfBytes_toNat (b1 b2 b3 b4 : Byte) :
    (wordOfBytes b1 b2 b3 b4).toNat = b1.toNat + b2.toNat * 2 ^ 8 + b3.toNat * 2 ^ 16 + b4.toNat * 2 ^ 24 := by
  have h1 := b1.isLt
  have h2 := b2.isLt
  have h3 := b3.isLt
  have h4 := b4.isLt
  simp only [wordOfBytes, BitVec.toNat_append]
  rw [← Nat.shiftLeft_add_eq_or_of_lt h3, ← Nat.shiftLeft_add_eq_or_of_lt h2, ← Nat.shiftLeft_add_eq_or_of_lt h1]
  simp only [Nat.shiftLeft_eq]
  omega

/-- A word is given by the sum of its bytes (R65). -/
theorem eq_wordOfBytes {b1 b2 b3 b4 : Byte} {w : Word}
    (h : w.toNat = b1.toNat + b2.toNat * 2 ^ 8 + b3.toNat * 2 ^ 16 + b4.toNat * 2 ^ 24) :
    w = wordOfBytes b1 b2 b3 b4 :=
  BitVec.eq_of_toNat_eq (h.trans (wordOfBytes_toNat b1 b2 b3 b4).symm)

@[simp] theorem byteRecord_byte (b : Byte) : (byteRecord b).byte = b := by
  apply BitVec.eq_of_getLsbD_eq
  intro i hi
  simp [byteRecord, Record.byte, hi]
  omega

@[simp] theorem record_element (el : Element) : el.record.element = el := by
  cases el with
  | code b => simp [Element.record, Record.element, show (byteRecord b).kind = 0 from rfl]
  | f32 w => rfl
  | u32 w => rfl
  | i32 w => rfl

theorem map_byteRecord_byte (bs : List Byte) : (bs.map byteRecord).map Record.byte = bs := by
  simp [Function.comp_def]

theorem map_record_element (els : Message) : (els.map Element.record).map Record.element = els := by
  simp [Function.comp_def]

/-! ### The item decoder -/

/-- The numeric instruction of a tag has the item length of R62. -/
@[simp] theorem numericItem_itemLength (c : Cfg) (tag : Byte) (w : Word) : (numericItem c tag w).itemLength = 5 := by
  unfold numericItem
  split
  · rfl
  · split <;> rfl

/-- Everything the item decoder can answer on a span that is not used up (R69). -/
theorem decodeItem_cases (c : Cfg) (b : Byte) (rest : List Byte) :
    (∃ b1 b2 b3 b4 more, rest = b1 :: b2 :: b3 :: b4 :: more ∧ c.isTag b = true
        ∧ decodeItem c (b :: rest) = .ok (numericItem c b (wordOfBytes b1 b2 b3 b4)))
      ∨ (rest.length < 4 ∧ c.isTag b = true ∧ decodeItem c (b :: rest) = .ok (.truncItem b rest))
      ∨ (c.isTag b = false ∧ c.isDef b = true ∧ decodeItem c (b :: rest) = .ok (.codeItem b))
      ∨ (c.isTag b = false ∧ c.isDef b = false ∧ decodeItem c (b :: rest) = .ok (.unknownByte b)) := by
  by_cases ht : c.isTag b = true
  · rcases rest with _ | ⟨b1, _ | ⟨b2, _ | ⟨b3, _ | ⟨b4, more⟩⟩⟩⟩
    · exact .inr (.inl ⟨by simp, ht, by simp [decodeItem, ht]⟩)
    · exact .inr (.inl ⟨by simp, ht, by simp [decodeItem, ht]⟩)
    · exact .inr (.inl ⟨by simp, ht, by simp [decodeItem, ht]⟩)
    · exact .inr (.inl ⟨by simp, ht, by simp [decodeItem, ht]⟩)
    · exact .inl ⟨b1, b2, b3, b4, more, rfl, ht, by simp [decodeItem, ht, c.codeOf_of_isTag ht]⟩
  · by_cases hd : c.isDef b = true
    · exact .inr (.inr (.inl ⟨by simpa using ht, hd, by simp [decodeItem, ht, hd]⟩))
    · exact .inr (.inr (.inr ⟨by simpa using ht, by simpa using hd, by simp [decodeItem, ht, hd]⟩))

theorem decodeItem_nil (c : Cfg) : decodeItem c [] = .error .spanUsedUp := rfl

/-- A span that is not used up always has an item at its head (R69, R127). -/
theorem decodeItem_ok (c : Cfg) (b : Byte) (rest : List Byte) : ∃ i, decodeItem c (b :: rest) = .ok i := by
  rcases decodeItem_cases c b rest with ⟨_, _, _, _, _, _, _, h⟩ | ⟨_, _, h⟩ | ⟨_, _, h⟩ | ⟨_, _, h⟩ <;>
    exact ⟨_, h⟩

/-- An item consumes at least one byte and no more than there are (R126). -/
theorem decodeItem_itemLength {c : Cfg} {span : List Byte} {i : Instr} (h : decodeItem c span = .ok i) :
    0 < i.itemLength ∧ i.itemLength ≤ span.length := by
  rcases span with _ | ⟨b, rest⟩
  · cases h
  · rcases decodeItem_cases c b rest with ⟨b1, b2, b3, b4, more, rfl, _, h'⟩ | ⟨_, _, h'⟩ | ⟨_, _, h'⟩ | ⟨_, _, h'⟩ <;>
      rw [h] at h' <;> cases h'
    · simp
    · simp [Instr.itemLength]; omega
    · simp [Instr.itemLength]
    · simp [Instr.itemLength]

/-- A tag with too few bytes after it (R125). -/
theorem decodeItem_trunc (c : Cfg) {tag : Byte} (ht : c.isTag tag = true) {rest : List Byte} (hr : rest.length < 4) :
    decodeItem c (tag :: rest) = .ok (.truncItem tag rest) := by
  rcases decodeItem_cases c tag rest with ⟨_, _, _, _, _, rfl, _, _⟩ | ⟨_, _, h⟩ | ⟨h, _⟩ | ⟨h, _⟩
  · simp at hr; omega
  · exact h
  · simp [ht] at h
  · simp [ht] at h

/-- A numeric item is one of the three (R69). -/
theorem numericItem_cases (c : Cfg) (tag : Byte) (w : Word) :
    numericItem c tag w = .f32Item w ∨ numericItem c tag w = .u32Item w ∨ numericItem c tag w = .i32Item w := by
  unfold numericItem
  split
  · exact .inl rfl
  · split
    · exact .inr (.inl rfl)
    · exact .inr (.inr rfl)

namespace Machine

/-- An item emits exactly one element, and it is well typed (R29, R126). -/
theorem itemElement_of_decodeItem {c : Cfg} {span : List Byte} {i : Instr} (h : decodeItem c span = .ok i) :
    ∃ el, itemElement c i = some el ∧ el.wellTyped c = true := by
  rcases span with _ | ⟨b, rest⟩
  · cases h
  · rcases decodeItem_cases c b rest with ⟨b1, b2, b3, b4, more, rfl, _, h'⟩ | ⟨_, _, h'⟩ | ⟨_, _, h'⟩ | ⟨_, _, h'⟩ <;>
      rw [h] at h' <;> cases h'
    · unfold numericItem
      split
      · exact ⟨_, rfl, rfl⟩
      · split <;> exact ⟨_, rfl, rfl⟩
    · exact ⟨_, rfl, c.isDef_bNone⟩
    · exact ⟨_, rfl, c.isDef_codeOf b⟩
    · exact ⟨_, rfl, c.isDef_bNone⟩

/-! ### DecodeSpan -/

/-- More fuel than the span is long changes nothing. -/
theorem decodeSpanLoop_fuel (c : Cfg) : ∀ (fuel : Nat) (span : List Byte), span.length ≤ fuel →
    decodeSpanLoop c fuel span = decodeSpanLoop c span.length span := by
  intro fuel
  induction fuel using Nat.strong_induction_on with
  | _ fuel ih =>
    intro span h
    rcases span with _ | ⟨b, rest⟩
    · cases fuel <;> rfl
    · obtain ⟨fuel, rfl⟩ : ∃ k, fuel = k + 1 := ⟨fuel - 1, by simp at h; omega⟩
      simp only [List.length_cons, decodeSpanLoop]
      obtain ⟨i, hi⟩ := decodeItem_ok c b rest
      have hl := decodeItem_itemLength hi
      simp only [hi]
      simp only [List.length_cons] at h hl
      have hd : ((b :: rest).drop i.itemLength).length ≤ rest.length := by simp; omega
      rw [ih fuel (by omega) _ (by omega)]
      by_cases hr : rest.length < fuel + 1
      · rw [ih rest.length hr _ hd]
      · omega

/-- DecodeSpan, one item at a time (R120). -/
theorem decodeSpan_item {c : Cfg} {span : List Byte} {i : Instr} (h : decodeItem c span = .ok i) :
    decodeSpan c span = (itemElement c i).toList ++ decodeSpan c (span.drop i.itemLength) := by
  rcases span with _ | ⟨b, rest⟩
  · cases h
  · have hl := decodeItem_itemLength h
    unfold decodeSpan
    simp only [List.length_cons, decodeSpanLoop, h]
    rw [decodeSpanLoop_fuel c rest.length _ (by simp at hl ⊢; omega)]

@[simp] theorem decodeSpan_nil (c : Cfg) : decodeSpan c [] = [] := rfl

/-- A numeric item at the head of a span (R124, R128, R129). -/
theorem decodeSpan_numeric (c : Cfg) {tag : Byte} (ht : c.isTag tag = true) (w : Word) (rest : List Byte) :
    decodeSpan c (tag :: bytesOfWord w ++ rest)
      = (itemElement c (numericItem c tag w)).toList ++ decodeSpan c rest := by
  have h : decodeItem c (tag :: bytesOfWord w ++ rest) = .ok (numericItem c tag w) := by
    simp [decodeItem, bytesOfWord, ht, c.codeOf_of_isTag ht, wordOfBytes_bytesOfWord]
  rw [decodeSpan_item h, numericItem_itemLength]
  rfl

/-- A truncated item ends the span (R125). -/
theorem decodeSpan_trunc (c : Cfg) {tag : Byte} (ht : c.isTag tag = true) {rest : List Byte}
    (hr : rest.length < 4) : decodeSpan c (tag :: rest) = [.code c.bNone] := by
  rw [decodeSpan_item (decodeItem_trunc c ht hr)]
  simp [itemElement, Instr.itemLength, Nat.add_comm 1]

/-- A head byte that is no tag is one `Code` element, whatever follows (R122, R123). -/
theorem decodeSpan_head (c : Cfg) {b : Byte} (ht : c.isTag b = false) (rest : List Byte) :
    decodeSpan c (b :: rest) = .code (c.codeOf b) :: decodeSpan c rest := by
  rcases decodeItem_cases c b rest with ⟨_, _, _, _, _, _, h, _⟩ | ⟨_, h, _⟩ | ⟨_, hd, h⟩ | ⟨_, hd, h⟩
  · simp [ht] at h
  · simp [ht] at h
  · rw [decodeSpan_item h]; rfl
  · rw [decodeSpan_item h, c.codeOf_of_not_isDef hd]; rfl

/-- Between `ceil(n / 5)` and `n` elements (R126). -/
theorem decodeSpan_length (c : Cfg) (span : List Byte) :
    (decodeSpan c span).length ≤ span.length ∧ span.length ≤ 5 * (decodeSpan c span).length := by
  induction hn : span.length using Nat.strong_induction_on generalizing span with
  | _ n ih =>
    subst hn
    rcases span with _ | ⟨b, rest⟩
    · simp
    · obtain ⟨i, hi⟩ := decodeItem_ok c b rest
      have hl := decodeItem_itemLength hi
      obtain ⟨el, hel, -⟩ := itemElement_of_decodeItem hi
      have h5 : i.itemLength ≤ 5 := by
        rcases decodeItem_cases c b rest with ⟨_, _, _, _, _, _, _, h'⟩ | ⟨hr, _, h'⟩ | ⟨_, _, h'⟩ | ⟨_, _, h'⟩ <;>
          rw [hi] at h' <;> cases h'
        · simp
        · simp [Instr.itemLength]; omega
        · simp [Instr.itemLength]
        · simp [Instr.itemLength]
      have h := ih _ (by simp at hl ⊢; omega) ((b :: rest).drop i.itemLength) rfl
      rw [decodeSpan_item hi, hel]
      simp at h hl ⊢
      omega

/-- Every element of a decoded message is well typed (R29). -/
theorem decodeSpan_wellTyped (c : Cfg) (span : List Byte) : wellTyped c (decodeSpan c span) := by
  induction hn : span.length using Nat.strong_induction_on generalizing span with
  | _ n ih =>
    subst hn
    rcases span with _ | ⟨b, rest⟩
    · simp [wellTyped]
    · obtain ⟨i, hi⟩ := decodeItem_ok c b rest
      have hl := decodeItem_itemLength hi
      obtain ⟨el, hel, hw⟩ := itemElement_of_decodeItem hi
      have h := ih _ (by simp at hl ⊢; omega) ((b :: rest).drop i.itemLength) rfl
      rw [decodeSpan_item hi, hel]
      intro x hx
      simp at hx
      rcases hx with rfl | hx
      · exact hw
      · exact h x hx

/-! ### EncodeItems -/

@[simp] theorem encodeItems_nil (c : Cfg) : encodeItems c [] = [] := rfl

@[simp] theorem encodeItems_cons (c : Cfg) (el : Element) (els : Message) :
    encodeItems c (el :: els) = encodeItem c el ++ encodeItems c els := rfl

theorem encodeItems_append (c : Cfg) (xs ys : Message) :
    encodeItems c (xs ++ ys) = encodeItems c xs ++ encodeItems c ys := by
  simp [encodeItems]

/-- Decoding an encoding that holds no tag as a `Code`, whatever follows it: the elements, then what follows (R136). -/
theorem decodeSpan_encodeItems_append (c : Cfg) (els : Message) (rest : List Byte) (hw : wellTyped c els)
    (hn : noTagCode c els) : decodeSpan c (encodeItems c els ++ rest) = els ++ decodeSpan c rest := by
  induction els with
  | nil => rfl
  | cons el els ih =>
    have ih' := ih (fun x hx => hw x (by simp [hx])) (fun b hb => hn b (by simp [hb]))
    rw [encodeItems_cons, List.append_assoc]
    cases el with
    | code b =>
      have hd : c.isDef b = true := hw (.code b) (by simp)
      show decodeSpan c (b :: (encodeItems c els ++ rest)) = _
      rw [decodeSpan_head c (hn b (by simp)), ih', c.codeOf_of_isDef hd]
      rfl
    | f32 w =>
      rw [encodeItem, decodeSpan_numeric c c.isTag_bFloat, ih']
      simp [numericItem, itemElement]
    | u32 w =>
      rw [encodeItem, decodeSpan_numeric c c.isTag_bUint, ih']
      simp [numericItem, itemElement, c.bUint_ne_bFloat]
    | i32 w =>
      rw [encodeItem, decodeSpan_numeric c c.isTag_bInt, ih']
      simp [numericItem, itemElement, c.bInt_ne_bFloat, c.bInt_ne_bUint]

/-! ### The parse -/

/-- More fuel than the span is long changes nothing. -/
theorem parseLoop_fuel (c : Cfg) : ∀ (fuel : Nat) (span : List Byte), span.length ≤ fuel →
    parseLoop c fuel span = parseLoop c span.length span := by
  intro fuel
  induction fuel using Nat.strong_induction_on with
  | _ fuel ih =>
    intro span h
    rcases span with _ | ⟨b, rest⟩
    · cases fuel <;> rfl
    · obtain ⟨fuel, rfl⟩ : ∃ k, fuel = k + 1 := ⟨fuel - 1, by simp at h; omega⟩
      simp only [List.length_cons, parseLoop]
      obtain ⟨i, hi⟩ := decodeItem_ok c b rest
      have hl := decodeItem_itemLength hi
      simp only [hi]
      simp only [List.length_cons] at h hl
      have hd : ((b :: rest).drop i.itemLength).length ≤ rest.length := by simp; omega
      rw [ih fuel (by omega) _ (by omega)]
      by_cases hr : rest.length < fuel + 1
      · rw [ih rest.length hr _ hd]
      · omega

@[simp] theorem parse_nil (c : Cfg) : parse c [] = [] := rfl

/-- The parse, one item at a time (R69). -/
theorem parse_item {c : Cfg} {span : List Byte} {i : Instr} (h : decodeItem c span = .ok i) :
    parse c span = i :: parse c (span.drop i.itemLength) := by
  rcases span with _ | ⟨b, rest⟩
  · cases h
  · have hl := decodeItem_itemLength h
    unfold parse
    simp only [List.length_cons, parseLoop, h]
    rw [parseLoop_fuel c rest.length _ (by simp at hl ⊢; omega)]

end Machine

end Sys2Proof
end

