-- ==== Sys2Proof/Laws/State.lean ====
section
/-! SUPPORT. One lemma per field of each named update of the state: what it writes and what it leaves alone. -/

namespace Sys2Proof.Machine

variable (s : State)

/-! ### `answer` -/

@[simp] theorem State.answer_cfg (r : Response) : (s.answer r).cfg = s.cfg := rfl

@[simp] theorem State.answer_bl (r : Response) : (s.answer r).bl = s.bl := rfl

@[simp] theorem State.answer_stage (r : Response) : (s.answer r).stage = s.stage := rfl

@[simp] theorem State.answer_work (r : Response) : (s.answer r).work = s.work := rfl

@[simp] theorem State.answer_script (r : Response) : (s.answer r).script = s.script := rfl

@[simp] theorem State.answer_edges (r : Response) : (s.answer r).edges = s.edges := rfl

@[simp] theorem State.answer_sent (r : Response) : (s.answer r).sent = s.sent ++ [r] := rfl

@[simp] theorem State.answer_taken (r : Response) : (s.answer r).taken = s.taken := rfl

/-! ### `feed` -/

@[simp] theorem State.feed_cfg (chunk : List Byte) : (s.feed chunk).cfg = s.cfg := rfl

@[simp] theorem State.feed_bl (chunk : List Byte) : (s.feed chunk).bl = feedBacklog s.cfg s.bl chunk := rfl

@[simp] theorem State.feed_stage (chunk : List Byte) : (s.feed chunk).stage = s.stage := rfl

@[simp] theorem State.feed_work (chunk : List Byte) : (s.feed chunk).work = s.work := rfl

@[simp] theorem State.feed_script (chunk : List Byte) : (s.feed chunk).script = s.script := rfl

@[simp] theorem State.feed_edges (chunk : List Byte) : (s.feed chunk).edges = s.edges := rfl

@[simp] theorem State.feed_sent (chunk : List Byte) : (s.feed chunk).sent = s.sent ++ [.done] := rfl

@[simp] theorem State.feed_taken (chunk : List Byte) : (s.feed chunk).taken = s.taken := rfl

/-! ### `tryDecode` -/

@[simp] theorem State.tryDecode_cfg : s.tryDecode.cfg = s.cfg := rfl

@[simp] theorem State.tryDecode_bl : s.tryDecode.bl = (Machine.tryDecode s.cfg s.bl).1 := rfl

@[simp] theorem State.tryDecode_stage : s.tryDecode.stage = s.stage := rfl

@[simp] theorem State.tryDecode_work : s.tryDecode.work = s.work := rfl

@[simp] theorem State.tryDecode_script : s.tryDecode.script = s.script := rfl

@[simp] theorem State.tryDecode_edges : s.tryDecode.edges = s.edges := rfl

@[simp] theorem State.tryDecode_sent : s.tryDecode.sent = s.sent ++ [.decoded (Machine.tryDecode s.cfg s.bl).2] := rfl

@[simp] theorem State.tryDecode_taken : s.tryDecode.taken = s.taken := rfl

/-! ### `applyReset` -/

@[simp] theorem State.applyReset_cfg : s.applyReset.cfg = s.cfg := rfl

@[simp] theorem State.applyReset_bl : s.applyReset.bl = [] := rfl

@[simp] theorem State.applyReset_stage : s.applyReset.stage = .idle := rfl

@[simp] theorem State.applyReset_work : s.applyReset.work = Work.init := rfl

@[simp] theorem State.applyReset_script : s.applyReset.script = s.script := rfl

@[simp] theorem State.applyReset_edges : s.applyReset.edges = s.edges := rfl

@[simp] theorem State.applyReset_sent : s.applyReset.sent = s.sent := rfl

@[simp] theorem State.applyReset_taken : s.applyReset.taken = s.taken := rfl

/-! ### `emit` -/

@[simp] theorem State.emit_cfg (el : Element) (next : Nat) : (s.emit el next).cfg = s.cfg := rfl

@[simp] theorem State.emit_bl (el : Element) (next : Nat) : (s.emit el next).bl = s.bl := rfl

@[simp] theorem State.emit_stage (el : Element) (next : Nat) : (s.emit el next).stage = s.stage := rfl

@[simp] theorem State.emit_work (el : Element) (next : Nat) : (s.emit el next).work = { s.work with msg := s.work.msg ++ [el], cursor := next } := rfl

@[simp] theorem State.emit_script (el : Element) (next : Nat) : (s.emit el next).script = s.script := rfl

@[simp] theorem State.emit_edges (el : Element) (next : Nat) : (s.emit el next).edges = s.edges := rfl

@[simp] theorem State.emit_sent (el : Element) (next : Nat) : (s.emit el next).sent = s.sent := rfl

@[simp] theorem State.emit_taken (el : Element) (next : Nat) : (s.emit el next).taken = s.taken := rfl

/-! ### `append` -/

@[simp] theorem State.append_cfg (bytes : List Byte) : (s.append bytes).cfg = s.cfg := rfl

@[simp] theorem State.append_bl (bytes : List Byte) : (s.append bytes).bl = s.bl := rfl

@[simp] theorem State.append_stage (bytes : List Byte) : (s.append bytes).stage = s.stage := rfl

@[simp] theorem State.append_work (bytes : List Byte) : (s.append bytes).work = { s.work with outBytes := s.work.outBytes ++ bytes, pos := s.work.pos + 1 } := rfl

@[simp] theorem State.append_script (bytes : List Byte) : (s.append bytes).script = s.script := rfl

@[simp] theorem State.append_edges (bytes : List Byte) : (s.append bytes).edges = s.edges := rfl

@[simp] theorem State.append_sent (bytes : List Byte) : (s.append bytes).sent = s.sent := rfl

@[simp] theorem State.append_taken (bytes : List Byte) : (s.append bytes).taken = s.taken := rfl

/-! ### `respond` -/

@[simp] theorem State.respond_cfg (r : Response) : (s.respond r).cfg = s.cfg := rfl

@[simp] theorem State.respond_bl (r : Response) : (s.respond r).bl = s.bl := rfl

@[simp] theorem State.respond_stage (r : Response) : (s.respond r).stage = .respond := rfl

@[simp] theorem State.respond_work (r : Response) : (s.respond r).work = { s.work with rspFlag := r.flag, rBuf := r.stream } := rfl

@[simp] theorem State.respond_script (r : Response) : (s.respond r).script = s.script := rfl

@[simp] theorem State.respond_edges (r : Response) : (s.respond r).edges = s.edges := rfl

@[simp] theorem State.respond_sent (r : Response) : (s.respond r).sent = s.sent := rfl

@[simp] theorem State.respond_taken (r : Response) : (s.respond r).taken = s.taken := rfl

/-! ### `accept` -/

@[simp] theorem State.accept_cfg (op : BitVec 2) : (s.accept op).cfg = s.cfg := rfl

@[simp] theorem State.accept_bl (op : BitVec 2) : (s.accept op).bl = s.bl := rfl

@[simp] theorem State.accept_stage (op : BitVec 2) : (s.accept op).stage = (if op = 1 then .scanStart else .operands) := rfl

@[simp] theorem State.accept_work (op : BitVec 2) : (s.accept op).work = { Work.init with op := op } := rfl

@[simp] theorem State.accept_script (op : BitVec 2) : (s.accept op).script = s.script := rfl

@[simp] theorem State.accept_edges (op : BitVec 2) : (s.accept op).edges = s.edges := rfl

@[simp] theorem State.accept_sent (op : BitVec 2) : (s.accept op).sent = s.sent := rfl

@[simp] theorem State.accept_taken (op : BitVec 2) : (s.accept op).taken = s.taken := rfl

/-! ### `takeOperands` -/

@[simp] theorem State.takeOperands_cfg (p : Pins) : (s.takeOperands p).cfg = s.cfg := rfl

@[simp] theorem State.takeOperands_bl (p : Pins) : (s.takeOperands p).bl = s.bl := rfl

@[simp] theorem State.takeOperands_script (p : Pins) : (s.takeOperands p).script = s.script := rfl

@[simp] theorem State.takeOperands_edges (p : Pins) : (s.takeOperands p).edges = s.edges := rfl

@[simp] theorem State.takeOperands_sent (p : Pins) : (s.takeOperands p).sent = s.sent := rfl

@[simp] theorem State.takeOperands_taken (p : Pins) : (s.takeOperands p).taken = s.taken := rfl

@[simp] theorem State.takeOperands_work (p : Pins) : (s.takeOperands p).work = s.operandsTaken p := rfl

@[simp] theorem State.takeOperands_stage (p : Pins) :
    (s.takeOperands p).stage = (s.operandsTaken p).stageAfterOperands := rfl

/-! ### `finish` -/

@[simp] theorem State.finish_cfg : s.finish.cfg = s.cfg := rfl

@[simp] theorem State.finish_bl : s.finish.bl = s.bl := rfl

@[simp] theorem State.finish_stage : s.finish.stage = .idle := rfl

@[simp] theorem State.finish_work : s.finish.work = Work.init := rfl

@[simp] theorem State.finish_script : s.finish.script = s.script := rfl

@[simp] theorem State.finish_edges : s.finish.edges = s.edges := rfl

@[simp] theorem State.finish_sent : s.finish.sent = s.sent := rfl

@[simp] theorem State.finish_taken : s.finish.taken = s.taken := rfl

/-! ### `appendChunk` -/

@[simp] theorem State.appendChunk_cfg : s.appendChunk.cfg = s.cfg := rfl

@[simp] theorem State.appendChunk_bl : s.appendChunk.bl = (if s.work.feedOver then [] else s.bl ++ s.work.aBuf.map Record.byte) := rfl

@[simp] theorem State.appendChunk_stage : s.appendChunk.stage = s.stage := rfl

@[simp] theorem State.appendChunk_work : s.appendChunk.work = s.work := rfl

@[simp] theorem State.appendChunk_script : s.appendChunk.script = s.script := rfl

@[simp] theorem State.appendChunk_edges : s.appendChunk.edges = s.edges := rfl

@[simp] theorem State.appendChunk_sent : s.appendChunk.sent = s.sent := rfl

@[simp] theorem State.appendChunk_taken : s.appendChunk.taken = s.taken := rfl

/-! ### `extract` -/

@[simp] theorem State.extract_cfg : s.extract.cfg = s.cfg := rfl

@[simp] theorem State.extract_bl : s.extract.bl = s.bl.drop (s.work.endIdx + 1) := rfl

@[simp] theorem State.extract_stage : s.extract.stage = .respond := rfl

@[simp] theorem State.extract_work : s.extract.work = { s.work with rspFlag := true, rBuf := resultBeats (s.work.msg.map Element.record) } := rfl

@[simp] theorem State.extract_script : s.extract.script = s.script := rfl

@[simp] theorem State.extract_edges : s.extract.edges = s.edges := rfl

@[simp] theorem State.extract_sent : s.extract.sent = s.sent := rfl

@[simp] theorem State.extract_taken : s.extract.taken = s.taken := rfl

/-! ### `scanOn` -/

@[simp] theorem State.scanOn_cfg : s.scanOn.cfg = s.cfg := rfl

@[simp] theorem State.scanOn_bl : s.scanOn.bl = s.bl := rfl

@[simp] theorem State.scanOn_stage : s.scanOn.stage = s.stage := rfl

@[simp] theorem State.scanOn_work : s.scanOn.work = { s.work with cursor := s.work.cursor + 1 } := rfl

@[simp] theorem State.scanOn_script : s.scanOn.script = s.script := rfl

@[simp] theorem State.scanOn_edges : s.scanOn.edges = s.edges := rfl

@[simp] theorem State.scanOn_sent : s.scanOn.sent = s.sent := rfl

@[simp] theorem State.scanOn_taken : s.scanOn.taken = s.taken := rfl

end Sys2Proof.Machine
end

