-- ==== Sys2Proof/Laws/Backlog.lean ====
section
/-! SUPPORT. Lemmas about the scans of the backlog and the three ways it changes (R22). -/

namespace Sys2Proof.Machine

/-! ### `first` -/

theorem first_eq_none_iff {bs : List Byte} {b : Byte} {k : Nat} : first bs b k = none ↔ b ∉ bs.drop k := by
  simp only [first, Option.map_eq_none_iff, List.findIdx?_eq_none_iff]
  constructor
  · intro h hm
    simpa using h b hm
  · intro h x hx
    by_contra hc
    simp at hc
    exact h (hc ▸ hx)

/-- The first occurrence at or after `k`, as a split of the list (R13). -/
theorem first_eq_some_iff {bs : List Byte} {b : Byte} {k n : Nat} :
    first bs b k = some n ↔ k ≤ n ∧ bs[n]? = some b ∧ b ∉ slice bs k n := by
  have hs : ∀ m, slice bs k (m + k) = (bs.drop k).take m := by
    intro m
    simp [slice, List.drop_take]
  constructor
  · intro h
    simp only [first, Option.map_eq_some_iff] at h
    obtain ⟨m, hm, rfl⟩ := h
    rw [List.findIdx?_eq_some_iff_getElem] at hm
    obtain ⟨hlt, hb, hj⟩ := hm
    simp at hb
    refine ⟨by omega, ?_, ?_⟩
    · simp at hlt
      rw [List.getElem?_eq_getElem (by omega), ← hb]
      simp [Nat.add_comm]
    · rw [hs]
      intro hmem
      obtain ⟨j, hjl, hje⟩ := List.getElem_of_mem hmem
      simp at hjl hje
      have := hj j (by omega)
      simp [hje] at this
  · rintro ⟨hk, hn, hnot⟩
    obtain ⟨m, rfl⟩ : ∃ m, n = m + k := ⟨n - k, by omega⟩
    rw [hs] at hnot
    obtain ⟨hlt, hb⟩ := List.getElem?_eq_some_iff.mp hn
    simp only [first, Option.map_eq_some_iff]
    refine ⟨m, ?_, rfl⟩
    rw [List.findIdx?_eq_some_iff_getElem]
    refine ⟨by simp; omega, by simp [Nat.add_comm k, hb], ?_⟩
    intro j hj
    simp
    intro hc
    apply hnot
    rw [List.mem_iff_getElem]
    refine ⟨j, by simp; omega, by simpa using hc⟩

theorem first_lt_length {bs : List Byte} {b : Byte} {k n : Nat} (h : first bs b k = some n) : n < bs.length := by
  obtain ⟨-, hn, -⟩ := first_eq_some_iff.mp h
  exact (List.getElem?_eq_some_iff.mp hn).1

/-- The first occurrence in a list given by its split. -/
theorem first_of_split {pre post : List Byte} {b : Byte} (h : b ∉ pre) :
    first (pre ++ b :: post) b 0 = some pre.length := by
  rw [first_eq_some_iff]
  refine ⟨by omega, by simp, by simpa [slice] using h⟩

/-- The first occurrence after a prefix is the one in the rest. -/
theorem first_append {pre rest : List Byte} {b : Byte} :
    first (pre ++ rest) b pre.length = (first rest b 0).map (· + pre.length) := by
  simp [first]

/-! ### FEED -/

theorem feedBacklog_lt (c : Cfg) (bl chunk : List Byte) : (feedBacklog c bl chunk).length < c.ceiling := by
  have := c.three_le_ceiling
  unfold feedBacklog
  split
  · simp; omega
  · simp; omega

/-- FEED either clears or appends, by the guard on the exact total (R92). -/
theorem feedBacklog_cases (c : Cfg) (bl chunk : List Byte) :
    (c.ceiling ≤ bl.length + chunk.length ∧ feedBacklog c bl chunk = [])
      ∨ (bl.length + chunk.length < c.ceiling ∧ feedBacklog c bl chunk = bl ++ chunk) := by
  unfold feedBacklog
  split
  · exact .inl ⟨by omega, rfl⟩
  · exact .inr ⟨by omega, rfl⟩

/-! ### TRY_DECODE -/

/-- Everything TRY_DECODE can do (R93 to R95). -/
theorem tryDecode_cases (c : Cfg) (bl : List Byte) :
    (first bl c.bStart 0 = none ∧ tryDecode c bl = (bl, none))
      ∨ (∃ s, first bl c.bStart 0 = some s ∧ first bl c.bEnd (s + 1) = none ∧ tryDecode c bl = (bl, none))
      ∨ (∃ s e, first bl c.bStart 0 = some s ∧ first bl c.bEnd (s + 1) = some e
          ∧ tryDecode c bl = (bl.drop (e + 1), some (decodeSpan c (slice bl (s + 1) e)))) := by
  unfold tryDecode
  cases hs : first bl c.bStart 0 with
  | none => exact .inl ⟨rfl, rfl⟩
  | some s =>
    cases he : first bl c.bEnd (s + 1) with
    | none => exact .inr (.inl ⟨s, rfl, he, by simp [he]⟩)
    | some e => exact .inr (.inr ⟨s, e, rfl, he, by simp [he]⟩)

/-- A frame given by its bytes: the earliest start, the earliest end after it (R95). -/
theorem tryDecode_frame (c : Cfg) {pre span post : List Byte} (hpre : c.bStart ∉ pre) (hspan : c.bEnd ∉ span) :
    tryDecode c (pre ++ c.bStart :: span ++ c.bEnd :: post) = (post, some (decodeSpan c span)) := by
  have hs : first (pre ++ c.bStart :: span ++ c.bEnd :: post) c.bStart 0 = some pre.length := by
    rw [List.append_assoc, List.cons_append]
    exact first_of_split hpre
  have he : first (pre ++ c.bStart :: span ++ c.bEnd :: post) c.bEnd (pre.length + 1)
      = some (pre.length + 1 + span.length) := by
    have := first_append (pre := pre ++ [c.bStart]) (rest := span ++ c.bEnd :: post) (b := c.bEnd)
    rw [first_of_split hspan] at this
    simpa [Nat.add_comm, Nat.add_left_comm] using this
  simp only [tryDecode, hs, he, slice, Prod.mk.injEq, Option.some.injEq]
  have hlen : pre.length + 1 + span.length = (pre ++ c.bStart :: span).length := by simp; omega
  constructor
  · rw [hlen, show (pre ++ c.bStart :: span ++ c.bEnd :: post) = (pre ++ c.bStart :: span ++ [c.bEnd]) ++ post by simp]
    rw [List.drop_left' (by simp; omega)]
  · rw [hlen, List.take_left' rfl]
    congr 1
    rw [show pre ++ c.bStart :: span = (pre ++ [c.bStart]) ++ span by simp, List.drop_left' (by simp)]

/-- No start delimiter: no message, and the backlog is retained (R93). -/
theorem tryDecode_no_start (c : Cfg) {bl : List Byte} (h : c.bStart ∉ bl) : tryDecode c bl = (bl, none) := by
  have : first bl c.bStart 0 = none := first_eq_none_iff.mpr (by simpa using h)
  simp [tryDecode, this]

/-- A start and no end after it: no message yet, and the backlog is retained (R94). -/
theorem tryDecode_no_end (c : Cfg) {pre rest : List Byte} (hpre : c.bStart ∉ pre) (hrest : c.bEnd ∉ rest) :
    tryDecode c (pre ++ c.bStart :: rest) = (pre ++ c.bStart :: rest, none) := by
  have he : first (pre ++ c.bStart :: rest) c.bEnd (pre.length + 1) = none := by
    rw [first_eq_none_iff, show pre ++ c.bStart :: rest = (pre ++ [c.bStart]) ++ rest by simp,
      List.drop_left' (by simp)]
    exact hrest
  simp [tryDecode, first_of_split hpre, he]

/-- TRY_DECODE never lengthens the backlog, and takes two bytes at least where it answers a message (R97). -/
theorem tryDecode_length (c : Cfg) (bl : List Byte) :
    (tryDecode c bl).1.length ≤ bl.length
      ∧ ((tryDecode c bl).2.isSome = true → (tryDecode c bl).1.length + 2 ≤ bl.length) := by
  rcases tryDecode_cases c bl with ⟨_, h⟩ | ⟨_, _, _, h⟩ | ⟨s, e, hs, he, h⟩
  · simp [h]
  · simp [h]
  · have h1 := first_lt_length he
    have h2 := (first_eq_some_iff.mp he).1
    simp [h]
    omega

/-- TRY_DECODE keeps a suffix of the backlog (R22, R41). -/
theorem tryDecode_suffix (c : Cfg) (bl : List Byte) : (tryDecode c bl).1 <:+ bl := by
  rcases tryDecode_cases c bl with ⟨_, h⟩ | ⟨_, _, _, h⟩ | ⟨s, e, hs, he, h⟩
  · simp [h]
  · simp [h]
  · rw [h]; exact List.drop_suffix _ _

/-- A command that answers `None` changes nothing (R48). -/
theorem tryDecode_none (c : Cfg) {bl : List Byte} (h : (tryDecode c bl).2 = none) : (tryDecode c bl).1 = bl := by
  rcases tryDecode_cases c bl with ⟨_, h'⟩ | ⟨_, _, _, h'⟩ | ⟨_, _, _, _, h'⟩
  · rw [h']
  · rw [h']
  · rw [h'] at h; simp at h

/-- An encoded frame at the head of the backlog, its items free of `B_END`, is what TRY_DECODE extracts (R95, R131). -/
theorem tryDecode_encodeFrame_append (c : Cfg) (els : Message) (post : List Byte) (he : noEndByte c els) :
    tryDecode c (encodeFrame c els ++ post) = (post, some (decodeSpan c (encodeItems c els))) := by
  have := tryDecode_frame c (pre := []) (span := encodeItems c els) (post := post) (by simp) he
  simpa [encodeFrame, frame] using this

@[simp] theorem tryDecode_nil (c : Cfg) : tryDecode c [] = ([], none) := rfl

/-! ### The backlog as cells -/

/-- The cells of every backlog are in the one canonical form: every operation on the backlog keeps it (R40, R41). -/
theorem State.cells_wf (s : State) : Memory.wf s.cells = true := by
  simp [Memory.wf, State.cells, Function.comp_def, List.pairwise_lt_range']

@[simp] theorem State.cells_length (s : State) : s.cells.length = s.blen := by simp [State.cells, State.blen]

/-- A cell lists a position with the byte read there. -/
theorem State.mem_cells {s : State} {k : Nat} {b : Byte} : (k, b) ∈ s.cells ↔ s.readByte k = some b := by
  simp [State.cells, State.readByte, List.mem_zipIdx_iff_getElem?]

/-! ### drain -/

/-- drain changes the backlog and the responses alone. -/
theorem State.drain_frame : ∀ (fuel : Nat) (s : State),
    State.drain fuel s = { s with bl := (State.drain fuel s).bl, sent := (State.drain fuel s).sent } := by
  intro fuel
  induction fuel with
  | zero => intro s; rfl
  | succ fuel ih =>
    intro s
    unfold State.drain
    split
    · rfl
    · rw [ih s.tryDecode]; rfl

theorem State.drain_bl_length : ∀ (fuel : Nat) (s : State), (State.drain fuel s).bl.length ≤ s.bl.length := by
  intro fuel
  induction fuel with
  | zero => intro s; exact (tryDecode_length s.cfg s.bl).1
  | succ fuel ih =>
    intro s
    unfold State.drain
    have h := (tryDecode_length s.cfg s.bl).1
    split
    · exact h
    · exact (ih s.tryDecode).trans h

/-- With the backlog's length as fuel, drain ends on a backlog that yields nothing (R81). -/
theorem State.drain_exhausts : ∀ (fuel : Nat) (s : State), s.bl.length ≤ fuel →
    (Machine.tryDecode s.cfg (State.drain fuel s).bl).2 = none := by
  intro fuel
  induction fuel with
  | zero =>
    intro s h
    have hb : s.bl = [] := by simpa using h
    have : (State.drain 0 s).bl = [] := by simp [State.drain, State.tryDecode, hb]
    rw [this]; rfl
  | succ fuel ih =>
    intro s h
    unfold State.drain
    split
    next hn =>
      have : s.tryDecode.bl = s.bl := tryDecode_none s.cfg hn
      rw [this, hn]
    next m hm =>
      have hl := (tryDecode_length s.cfg s.bl).2 (by simp [hm])
      exact ih s.tryDecode (by simp [State.tryDecode_bl]; omega)

/-- More fuel than the backlog is long changes nothing. -/
theorem State.drain_fuel : ∀ (fuel : Nat) (s : State), s.bl.length ≤ fuel →
    State.drain fuel s = State.drain s.bl.length s := by
  intro fuel
  induction fuel using Nat.strong_induction_on with
  | _ fuel ih =>
    intro s h
    rcases fuel with _ | fuel
    · rw [show s.bl.length = 0 by omega]
    · cases hb : s.bl.length with
      | zero =>
        have : s.bl = [] := by simpa using hb
        simp [State.drain, this]
      | succ n =>
        unfold State.drain
        cases hd : (Machine.tryDecode s.cfg s.bl).2 with
        | none => rfl
        | some m =>
          simp only
          have hl := (tryDecode_length s.cfg s.bl).2 (by simp [hd])
          rw [ih fuel (by omega) s.tryDecode (by simp [State.tryDecode_bl]; omega)]
          by_cases hn : n < fuel + 1
          · rw [ih n hn s.tryDecode (by simp [State.tryDecode_bl]; omega)]
          · omega

/-- drain is `try`, and drain again where that answered a message (R81). -/
theorem State.drain_step (s : State) :
    State.drain s.bl.length s
      = if (Machine.tryDecode s.cfg s.bl).2 = none then s.tryDecode
        else State.drain s.tryDecode.bl.length s.tryDecode := by
  cases hb : s.bl.length with
  | zero =>
    have : s.bl = [] := by simpa using hb
    simp [State.drain, this]
  | succ n =>
    cases hd : (Machine.tryDecode s.cfg s.bl).2 with
    | none => simp [State.drain, hd]
    | some m =>
      have hl := (tryDecode_length s.cfg s.bl).2 (by simp [hd])
      rw [if_neg (by simp), ← State.drain_fuel n s.tryDecode (by simp [State.tryDecode_bl]; omega), State.drain, hd]

/-- drain keeps a suffix of the backlog (R22). -/
theorem State.drain_suffix : ∀ (fuel : Nat) (s : State), (State.drain fuel s).bl <:+ s.bl := by
  intro fuel
  induction fuel with
  | zero => intro s; exact tryDecode_suffix _ _
  | succ n ih =>
    intro s
    unfold State.drain
    split
    · exact tryDecode_suffix _ _
    · exact (ih s.tryDecode).trans (tryDecode_suffix _ _)

/-- drain's effect and answers are those of any state with the same configuration and backlog (R34). -/
theorem State.drain_congr : ∀ (fuel : Nat) (s1 s2 : State), s1.cfg = s2.cfg → s1.bl = s2.bl →
    (State.drain fuel s1).bl = (State.drain fuel s2).bl
      ∧ ∃ a, (State.drain fuel s1).sent = s1.sent ++ a ∧ (State.drain fuel s2).sent = s2.sent ++ a := by
  intro fuel
  induction fuel with
  | zero => intro s1 s2 hc hb; simp [State.drain, State.tryDecode, hc, hb]
  | succ n ih =>
    intro s1 s2 hc hb
    unfold State.drain
    rw [hc, hb]
    cases hd : (Machine.tryDecode s2.cfg s2.bl).2 with
    | none => simp [State.tryDecode, hc, hb]
    | some m =>
      simp only
      obtain ⟨e1, a, e2, e3⟩ := ih s1.tryDecode s2.tryDecode hc (by simp [State.tryDecode, hc, hb])
      refine ⟨e1, .decoded (some m) :: a, ?_, ?_⟩
      · rw [e2]; simp [State.tryDecode, hc, hb, hd]
      · rw [e3]; simp [State.tryDecode, hd]

end Sys2Proof.Machine
end

