-- ==== Sys2Proof/Laws/Step.lean ====
section
/-! SUPPORT. What a step can do, said once: which instruction it runs, and what each instruction and each edge leaves
alone. -/

namespace Sys2Proof.Machine

open Host (Outcome)

/-! ### The next step -/

@[simp] theorem Action.perform_run (i : Instr) (t : State) : (Action.run i t).perform = exec i t := rfl

@[simp] theorem Action.perform_settle (o : Outcome State Fault Refusal) : (Action.settle o).perform = o := rfl

/-- With no command in progress, the host's next act is taken whole. -/
theorem State.plan_act {s : State} {h : HostAct} {rest : List HostAct} (hi : s.stage = .idle)
    (hs : s.script = h :: rest) : s.plan = State.act h { s with script := rest } := by
  simp [State.plan, hi, hs]

/-- Otherwise the clock goes on by one edge. -/
theorem State.plan_edge {s : State} (h : s.stage = .idle → s.script = []) :
    s.plan = State.edge (s.edges.headD Pins.quiet) { s with edges := s.edges.tail } := by
  unfold State.plan
  split
  next hi hs => simp [h hi] at hs
  next => rfl

theorem step_act {s : State} {h : HostAct} {rest : List HostAct} {i : Instr} (hi : s.stage = .idle)
    (hs : s.script = h :: rest) (hd : h.instr = some i) : step s = exec i { s with script := rest } := by
  simp [step, State.plan_act hi hs, State.act, hd]

/-- A step is the host's next act or one edge, as the stage and the host's list say. -/
theorem step_cases {s t : State} (h : step s = .next t) :
    (s.stage = .idle ∧ ∃ a rest, s.script = a :: rest ∧ (State.act a { s with script := rest }).perform = .next t)
      ∨ ((s.stage = .idle → s.script = [])
        ∧ (({ s with edges := s.edges.tail } : State).edge (s.edges.headD Pins.quiet)).perform = .next t) := by
  by_cases hi : s.stage = .idle ∧ s.script ≠ []
  · obtain ⟨a, rest, hr⟩ := List.exists_cons_of_ne_nil hi.2
    exact .inl ⟨hi.1, a, rest, hr, by rw [← State.plan_act hi.1 hr]; exact h⟩
  · have hn : s.stage = .idle → s.script = [] := by tauto
    exact .inr ⟨hn, by rw [← State.plan_edge hn]; exact h⟩

/-- The step of an edge the host drives. -/
theorem step_edge {s : State} {p : Pins} {ps : List Pins} (hs : s.stage = .idle → s.script = [])
    (he : s.edges = p :: ps) : step s = (({ s with edges := ps } : State).edge p).perform := by
  simp only [step, State.plan_edge hs, he, List.headD_cons, List.tail_cons]

/-! ### One edge, stage by stage -/

theorem State.edge_reset {s : State} {p : Pins} (h : p.rst = true) : s.edge p = .settle (.next s.applyReset) := by
  simp [State.edge, h]

theorem State.edge_idle {s : State} {p : Pins} (hr : p.rst = false) (h : s.stage = .idle) :
    s.edge p = .settle (.next (if p.cmdValid then s.accept p.cmdOp else s)) := by
  simp [State.edge, hr, h]

theorem State.edge_operands {s : State} {p : Pins} (hr : p.rst = false) (h : s.stage = .operands) :
    s.edge p = .settle (.next (s.takeOperands p)) := by
  simp [State.edge, hr, h]

theorem State.edge_append {s : State} {p : Pins} (hr : p.rst = false) (h : s.stage = .append) :
    s.edge p = .settle (.next (s.appendChunk.respond .done)) := by
  simp [State.edge, hr, h]

theorem State.edge_scanStart {s : State} {p : Pins} (hr : p.rst = false) (h : s.stage = .scanStart) :
    s.edge p = s.scan .startScan := by
  simp [State.edge, hr, h]

theorem State.edge_scanEnd {s : State} {p : Pins} (hr : p.rst = false) (h : s.stage = .scanEnd) :
    s.edge p = s.scan .endScan := by
  simp [State.edge, hr, h]

/-- DecodeSpan with bytes left: the item at the cursor runs (R120). -/
theorem State.edge_item {s : State} {p : Pins} {i : Instr} (hr : p.rst = false) (h : s.stage = .items)
    (hi : decodeItem s.cfg (s.span.drop s.work.cursor) = .ok i) : s.edge p = .run i s := by
  simp [State.edge, hr, h, decode, hi]

/-- DecodeSpan done: the frame is extracted (R95). -/
theorem State.edge_extract {s : State} {p : Pins} (hr : p.rst = false) (h : s.stage = .items)
    (hi : s.span.length ≤ s.work.cursor) : s.edge p = .settle (.next s.extract) := by
  simp [State.edge, hr, h, decode, List.drop_eq_nil_of_le hi, decodeItem]

theorem State.edge_record {s : State} {p : Pins} {r : Record} (hr : p.rst = false) (h : s.stage = .encoding)
    (hp : s.work.aBuf[s.work.pos]? = some r) : s.edge p = .run (decodeRecord r) s := by
  simp [State.edge, hr, h, hp]

theorem State.edge_encoded {s : State} {p : Pins} (hr : p.rst = false) (h : s.stage = .encoding)
    (hp : s.work.aBuf[s.work.pos]? = none) :
    s.edge p = .settle (.next (s.respond (.bytes (frame s.cfg s.work.outBytes)))) := by
  simp [State.edge, hr, h, hp]

theorem State.edge_matching {s : State} {p : Pins} (hr : p.rst = false) (h : s.stage = .matching) :
    s.edge p = .settle (.next s.matchPosition) := by
  simp [State.edge, hr, h]

theorem State.edge_respond {s : State} {p : Pins} (hr : p.rst = false) (h : s.stage = .respond) :
    s.edge p = .settle (.next (if p.rspReady then s.responseTaken else s)) := by
  simp [State.edge, hr, h]

theorem State.edge_result {s : State} {p : Pins} (hr : p.rst = false) (h : s.stage = .result) :
    s.edge p = .settle (.next (if p.rReady then s.resultTaken else s)) := by
  simp [State.edge, hr, h]

/-- A scan at its position: used up, at the delimiter, or past another byte (R93, R94). -/
theorem State.scan_cases {s : State} {look : Byte → Fetched} {mark : Byte} {i : Instr} {no : Reject}
    (hl : ∀ b, decode s.cfg (look b) = if b = mark then .ok i else .error no) :
    (s.bl[s.work.cursor]? = none ∧ s.scan look = .settle (.next (s.respond (.decoded none))))
      ∨ (s.bl[s.work.cursor]? = some mark ∧ s.scan look = .run i s)
      ∨ (∃ b, s.bl[s.work.cursor]? = some b ∧ b ≠ mark ∧ s.scan look = .settle (.next s.scanOn)) := by
  unfold State.scan
  cases hb : s.bl[s.work.cursor]? with
  | none => exact .inl ⟨rfl, rfl⟩
  | some b =>
    by_cases h : b = mark
    · exact .inr (.inl ⟨by rw [h], by simp [hl, h]⟩)
    · exact .inr (.inr ⟨b, rfl, h, by simp [hl, h]⟩)

/-- What a scan's edge leaves: the answer `None`, the delimiter's instruction, or the next position. -/
theorem State.scan_perform {s t : State} {look : Byte → Fetched} {mark : Byte} {i : Instr} {no : Reject}
    (hl : ∀ b, decode s.cfg (look b) = if b = mark then .ok i else .error no)
    (h : (s.scan look).perform = .next t) :
    t = s.respond (.decoded none) ∨ exec i s = .next t ∨ t = s.scanOn := by
  rcases State.scan_cases hl with ⟨_, e⟩ | ⟨_, e⟩ | ⟨b, _, _, e⟩ <;> rw [e] at h
  · cases h; exact .inl rfl
  · exact .inr (.inl h)
  · cases h; exact .inr (.inr rfl)

/-! ### Instructions -/

/-- A command taken whole leaves the port level alone (R48, R51). -/
theorem exec_hostAct {h : HostAct} {i : Instr} {s t : State} (hd : h.instr = some i) (he : exec i s = .next t) :
    t = { s with bl := t.bl, sent := t.sent } := by
  cases h with
  | reset => cases hd
  | command op a b =>
    cases hd
    unfold decodeCommand at he
    split at he
    · cases he; rfl
    · split at he
      · cases he; rfl
      · split at he
        · simp only [exec, execEncode] at he
          split at he <;> cases he
          rfl
        · cases he; rfl
  | poll chunk => cases hd; cases he; rfl
  | drain =>
    cases hd
    cases he
    exact State.drain_frame _ _

/-- A record of ENCODE's operand adds its item (R131). -/
theorem exec_record {r : Record} {s t : State} (h : exec (decodeRecord r) s = .next t) :
    t = s.append (encodeItem s.cfg r.element) := by
  unfold decodeRecord at h
  cases he : r.element <;> simp only [he, exec, execEncCode, execEncF32, execEncU32, execEncI32] at h
  · split at h <;> cases h; rfl
  all_goals cases h; rfl

/-- A well-typed element's record completes (R131, R134). -/
theorem exec_record_of_wellTyped {r : Record} {s : State} (h : r.element.wellTyped s.cfg = true) :
    exec (decodeRecord r) s = .next (s.append (encodeItem s.cfg r.element)) := by
  unfold decodeRecord
  cases he : r.element with
  | code b =>
    rw [he] at h
    simp only [exec, execEncCode]
    exact if_pos h
  | f32 w => rfl
  | u32 w => rfl
  | i32 w => rfl

/-- An item at the cursor emits its element and moves the cursor past its bytes (R120). -/
theorem exec_item {s : State} {i : Instr} (hi : decodeItem s.cfg (s.span.drop s.work.cursor) = .ok i) :
    ∃ el, itemElement s.cfg i = some el ∧ exec i s = .next (s.emit el (s.work.cursor + i.itemLength)) := by
  rcases hd : s.span.drop s.work.cursor with _ | ⟨b, rest⟩
  · rw [hd] at hi; cases hi
  · rw [hd] at hi
    rcases decodeItem_cases s.cfg b rest with
      ⟨b1, b2, b3, b4, more, rfl, _, h'⟩ | ⟨_, _, h'⟩ | ⟨_, _, h'⟩ | ⟨_, hdf, h'⟩ <;> rw [h'] at hi <;> cases hi
    · rcases numericItem_cases s.cfg b (wordOfBytes b1 b2 b3 b4) with h | h | h <;> rw [h] <;> exact ⟨_, rfl, rfl⟩
    · have hn : s.span.length = s.work.cursor + (1 + rest.length) := by
        have h1 := congrArg List.length hd
        simp at h1
        omega
      exact ⟨_, rfl, by simp [exec, execTruncItem, hn, Instr.itemLength]⟩
    · exact ⟨_, rfl, rfl⟩
    · exact ⟨_, rfl, rfl⟩

/-- No instruction writes the configuration (R27), and none touches the host's script, its pins or what it has taken
on the ports. -/
theorem exec_environment {i : Instr} {s t : State} (h : exec i s = .next t) :
    t.cfg = s.cfg ∧ t.script = s.script ∧ t.edges = s.edges ∧ t.taken = s.taken := by
  cases i with
  | encode els =>
    simp only [exec, execEncode] at h
    split at h <;> cases h
    exact ⟨rfl, rfl, rfl, rfl⟩
  | encCode code =>
    simp only [exec, execEncCode] at h
    split at h <;> cases h
    exact ⟨rfl, rfl, rfl, rfl⟩
  | drain =>
    cases h
    rw [State.drain_frame]
    exact ⟨rfl, rfl, rfl, rfl⟩
  | _ => cases h; exact ⟨rfl, rfl, rfl, rfl⟩

/-! ### Edges -/

/-- Neither operand stream touches the opcode. -/
theorem Work.takeFeedByte_op (ceiling blen : Nat) (r : Record) (w : Work) :
    (w.takeFeedByte ceiling blen r).op = w.op := by
  unfold Work.takeFeedByte
  split
  · rfl
  · split <;> rfl

end Sys2Proof.Machine
end

