-- ==== Sys2Proof/Laws/Invariant.lean ====
section
/-! SUPPORT. The invariant of Safety.lean, edge by edge and act by act: what each stage of a command on the ports keeps
(R21, R33), and what an act taken whole keeps. -/

namespace Sys2Proof.Machine

/-! ### Lists under a scan -/

theorem notMem_take_succ {bs : List Byte} {b x : Byte} {k : Nat} (h : b ∉ bs.take k) (hx : bs[k]? = some x)
    (hne : x ≠ b) : b ∉ bs.take (k + 1) := by
  rw [List.take_add_one, hx]
  simpa [h] using fun e => hne e.symm

theorem notMem_slice_succ {bs : List Byte} {b x : Byte} {i k : Nat} (hik : i ≤ k) (h : b ∉ slice bs i k)
    (hx : bs[k]? = some x) (hne : x ≠ b) : b ∉ slice bs i (k + 1) := by
  unfold slice at *
  have hl := (List.getElem?_eq_some_iff.mp hx).1
  rw [List.take_add_one, hx, List.drop_append_of_le_length (by simp; omega)]
  simpa [h] using fun e => hne e.symm

/-! ### Beats and kinds -/

/-- Every sequence has at least one beat (R78). -/
theorem resultBeats_ne_nil (rs : List Record) : resultBeats rs ≠ [] := by
  unfold resultBeats
  split
  · simp
  · rcases rs with _ | ⟨r, _ | ⟨r2, rs⟩⟩ <;> simp_all [valueBeats]

theorem sameKinds_append {xs ys : Message} {x y : Element} (h : sameKinds xs ys = true) (hk : x.kind = y.kind) :
    sameKinds (xs ++ [x]) (ys ++ [y]) = true := by
  induction xs generalizing ys with
  | nil => cases ys <;> simp_all [sameKinds]
  | cons a as ih => cases ys <;> simp_all [sameKinds]

/-- MATCH compares the sequences of kinds (R152). -/
theorem sameKinds_iff (xs ys : Message) : sameKinds xs ys = true ↔ xs.map Element.kind = ys.map Element.kind := by
  induction xs generalizing ys with
  | nil => cases ys <;> simp [sameKinds]
  | cons x xs ih => cases ys <;> simp [sameKinds, ih]

theorem matchResult_iff (xs ys : Message) :
    matchResult xs ys = true ↔ xs.map Element.kind = ys.map Element.kind := by
  unfold matchResult
  split
  · rename_i h
    simp
    intro he
    exact h (by simpa using congrArg List.length he)
  · exact sameKinds_iff xs ys

/-- Every opcode is one of the four (R76). -/
theorem op_cases (op : BitVec 2) : op = 0 ∨ op = 1 ∨ op = 2 ∨ op = 3 := by
  revert op
  decide

/-! ### Operand streams -/

/-- Where a command can go from its operands, and which command that is. -/
theorem Work.stageAfterOperands_cases (w : Work) :
    w.stageAfterOperands = .operands
      ∨ (w.stageAfterOperands = .append ∧ w.op = 0)
      ∨ (w.stageAfterOperands = .scanStart ∧ w.op = 1)
      ∨ (w.stageAfterOperands = .encoding ∧ w.op = 2)
      ∨ (w.stageAfterOperands = .matching ∧ w.op = 3) := by
  unfold Work.stageAfterOperands
  split
  · rcases op_cases w.op with h | h | h | h <;> simp [h]
  · simp

/-- What a beat on stream A leaves alone, and FEED's count (R33). -/
theorem Work.takeA_spec (ceiling blen : Nat) (b : Beat) (w : Work) :
    (w.takeA ceiling blen b).op = w.op ∧ (w.takeA ceiling blen b).pos = w.pos
      ∧ (w.takeA ceiling blen b).outBytes = w.outBytes ∧ (w.takeA ceiling blen b).bBuf = w.bBuf
      ∧ (w.takeA ceiling blen b).bDone = w.bDone
      ∧ (w.op = 0 →
        (w.feedOver = false → w.feedCount = w.aBuf.length ∧ blen + w.aBuf.length < ceiling) →
        ((w.takeA ceiling blen b).feedOver = false →
          (w.takeA ceiling blen b).feedCount = (w.takeA ceiling blen b).aBuf.length
            ∧ blen + (w.takeA ceiling blen b).aBuf.length < ceiling)) := by
  unfold Work.takeA
  split
  · simp_all
  · split
    · unfold Work.takeFeedByte
      split
      · simp_all
      · split
        · simp_all
        · simp_all; omega
    · simp_all

/-- What a beat on stream B leaves alone. -/
theorem Work.takeB_spec (b : Beat) (w : Work) :
    (w.takeB b).op = w.op ∧ (w.takeB b).pos = w.pos ∧ (w.takeB b).outBytes = w.outBytes ∧ (w.takeB b).aBuf = w.aBuf
      ∧ (w.takeB b).aDone = w.aDone ∧ (w.takeB b).feedCount = w.feedCount ∧ (w.takeB b).feedOver = w.feedOver := by
  unfold Work.takeB
  split <;> simp

/-- A beat on stream A changes that stream's registers and FEED's count and latch alone. -/
theorem Work.takeA_frame (ceiling blen : Nat) (b : Beat) (w : Work) :
    w.takeA ceiling blen b = { w with
      aBuf := (w.takeA ceiling blen b).aBuf
      aDone := (w.takeA ceiling blen b).aDone
      feedCount := (w.takeA ceiling blen b).feedCount
      feedOver := (w.takeA ceiling blen b).feedOver } := by
  unfold Work.takeA Work.takeFeedByte
  split
  · rfl
  · split
    · split
      · rfl
      · split <;> rfl
    · rfl

/-- A beat on stream B changes that stream's registers alone. -/
theorem Work.takeB_frame (b : Beat) (w : Work) :
    w.takeB b = { w with bBuf := (w.takeB b).bBuf, bDone := (w.takeB b).bDone } := by
  unfold Work.takeB
  split <;> rfl

/-- What an edge of the operand streams leaves in stream A's registers does not depend on stream B. -/
theorem State.operandsTaken_streamA (p : Pins) (s : State) {w : Work}
    (hw : w = if p.aValid && s.aReady then s.work.takeA s.cfg.ceiling s.blen p.a else s.work) :
    (s.operandsTaken p).aBuf = w.aBuf ∧ (s.operandsTaken p).aDone = w.aDone
      ∧ (s.operandsTaken p).feedCount = w.feedCount ∧ (s.operandsTaken p).feedOver = w.feedOver := by
  simp only [State.operandsTaken, ← hw]
  split
  · obtain ⟨-, -, -, q4, q5, q6, q7⟩ := w.takeB_spec p.b
    exact ⟨q4, q5, q6, q7⟩
  · exact ⟨rfl, rfl, rfl, rfl⟩

/-- What it leaves in stream B's registers does not depend on stream A. -/
theorem State.operandsTaken_streamB (p : Pins) (s : State) {w : Work}
    (hw : w = if p.bValid && s.bReady then s.work.takeB p.b else s.work) :
    (s.operandsTaken p).bBuf = w.bBuf ∧ (s.operandsTaken p).bDone = w.bDone := by
  subst hw
  simp only [State.operandsTaken]
  split
  · split
    · rw [Work.takeA_frame]
      unfold Work.takeB
      split <;> exact ⟨rfl, rfl⟩
    · exact ⟨rfl, rfl⟩
  · split
    · rw [Work.takeA_frame]
      exact ⟨rfl, rfl⟩
    · exact ⟨rfl, rfl⟩

/-- What an edge of the operand streams leaves alone: all but the values taken, the two ends, and FEED's count and
latch. -/
theorem State.operandsTaken_frame (p : Pins) (s : State) :
    s.operandsTaken p = { s.work with
      aBuf := (s.operandsTaken p).aBuf
      aDone := (s.operandsTaken p).aDone
      bBuf := (s.operandsTaken p).bBuf
      bDone := (s.operandsTaken p).bDone
      feedCount := (s.operandsTaken p).feedCount
      feedOver := (s.operandsTaken p).feedOver } := by
  unfold State.operandsTaken
  dsimp only
  split
  · rw [Work.takeB_frame]
    split
    · rw [Work.takeA_frame]
    · rfl
  · split
    · rw [Work.takeA_frame]
    · rfl

/-! ### States the invariant holds of -/

theorem State.applyReset_inv (s : State) : s.applyReset.Inv := by
  have := s.cfg.three_le_ceiling
  exact ⟨by simp [State.backlogOk]; omega, rfl⟩

theorem State.finish_inv (s : State) (hb : s.backlogOk) : s.finish.Inv := ⟨hb, rfl⟩

/-- A response offered is the one of the command in progress (R76). -/
theorem State.respond_inv (s : State) (r : Response) (hb : s.backlogOk)
    (h : s.work.op = 0 ∧ r = .done ∨ s.work.op = 1 ∧ (∃ m, r = .decoded m)
      ∨ s.work.op = 2 ∧ (∃ bs, r = .bytes bs) ∨ s.work.op = 3 ∧ ∃ v, r = .verdict v) : (s.respond r).Inv := by
  refine ⟨hb, ?_⟩
  rcases h with ⟨h, rfl⟩ | ⟨h, m, rfl⟩ | ⟨h, m, rfl⟩ | ⟨h, m, rfl⟩ <;>
    simp [State.stageOk, h, Response.flag, Response.stream]
  · cases m <;> simp [resultBeats_ne_nil]
  · exact resultBeats_ne_nil _

/-! ### Acts taken whole -/

/-- An act taken whole keeps the invariant, with no command in progress. -/
theorem exec_hostAct_inv {s t : State} {h : HostAct} {i : Instr} (hs : s.Inv) (hi : s.stage = .idle)
    (hd : h.instr = some i) (he : exec i s = .next t) : t.Inv := by
  have hf := exec_hostAct hd he
  have hb : t.backlogOk := by
    have hs1 := hs.1
    unfold State.backlogOk at hs1 ⊢
    rw [(exec_environment he).1]
    cases h with
    | reset => cases hd
    | command op a b =>
      cases hd
      unfold decodeCommand at he
      split at he
      · cases he; exact feedBacklog_lt _ _ _
      · split at he
        · cases he; exact lt_of_le_of_lt (tryDecode_length _ _).1 hs1
        · split at he
          · simp only [exec, execEncode] at he
            split at he <;> cases he
            exact hs1
          · cases he; exact hs1
    | poll chunk => cases hd; cases he; exact lt_of_le_of_lt (tryDecode_length _ _).1 (feedBacklog_lt _ _ _)
    | drain => cases hd; cases he; exact lt_of_le_of_lt (State.drain_bl_length _ _) hs1
  refine ⟨hb, ?_⟩
  have h2 := hs.2
  have e1 : t.stage = s.stage := by rw [hf]
  have e2 : t.work = s.work := by rw [hf]
  unfold State.stageOk at h2 ⊢
  rw [e1, e2, hi]
  simpa [hi] using h2

/-! ### Edges, stage by stage -/

section
variable {s t : State} {p : Pins}

theorem State.edge_idle_inv (hs : s.Inv) (hr : p.rst = false) (hst : s.stage = .idle)
    (h : (s.edge p).perform = .next t) : t.Inv := by
  obtain ⟨hb, hk⟩ := hs
  simp only [State.stageOk, hst] at hk
  rw [State.edge_idle hr hst] at h
  cases h
  split
  · refine ⟨hb, ?_⟩
    by_cases ho : p.cmdOp = 1
    · have he : (s.accept p.cmdOp).stage = .scanStart := by simp [ho]
      simp only [State.stageOk, he]
      simp [ho, Work.init]
    · have he : (s.accept p.cmdOp).stage = .operands := by simp only [State.accept_stage, if_neg ho]
      have hta : (p.cmdOp != 1) = true := by simpa using ho
      simp only [State.stageOk, he]
      refine ⟨?_, rfl, rfl, fun _ _ => ⟨rfl, hb⟩⟩
      simp only [State.accept_work, Work.stageAfterOperands, Work.init, takesA, hta, Bool.not_true, Bool.or_self,
        Bool.false_and]
      rfl
  · exact ⟨hb, by simp [State.stageOk, hst, hk]⟩

theorem State.edge_operands_inv (hs : s.Inv) (hr : p.rst = false) (hst : s.stage = .operands)
    (h : (s.edge p).perform = .next t) : t.Inv := by
  obtain ⟨hb, hk⟩ := hs
  simp only [State.stageOk, hst] at hk
  rw [State.edge_operands hr hst] at h
  cases h
  refine ⟨hb, ?_⟩
  obtain ⟨k1, k2, k3, k4⟩ := hk
  have hkept : (s.operandsTaken p).op = s.work.op ∧ (s.operandsTaken p).pos = 0 ∧ (s.operandsTaken p).outBytes = []
      ∧ ((s.operandsTaken p).op = 0 → (s.operandsTaken p).feedOver = false →
        (s.operandsTaken p).feedCount = (s.operandsTaken p).aBuf.length
          ∧ s.bl.length + (s.operandsTaken p).aBuf.length < s.cfg.ceiling) := by
    unfold State.operandsTaken
    have ha : ∀ w, w = (if p.aValid && s.aReady then s.work.takeA s.cfg.ceiling s.blen p.a else s.work) →
        w.op = s.work.op ∧ w.pos = 0 ∧ w.outBytes = [] ∧ (w.op = 0 → w.feedOver = false →
          w.feedCount = w.aBuf.length ∧ s.bl.length + w.aBuf.length < s.cfg.ceiling) := by
      rintro w rfl
      split
      · obtain ⟨q1, q2, q3, -, -, q6⟩ := s.work.takeA_spec s.cfg.ceiling s.blen p.a
        exact ⟨q1, q2.trans k2, q3.trans k3, fun h0 => q6 (q1 ▸ h0) (k4 (q1 ▸ h0))⟩
      · exact ⟨rfl, k2, k3, k4⟩
    obtain ⟨a1, a2, a3, a4⟩ := ha _ rfl
    dsimp only
    split
    · generalize (if p.aValid && s.aReady then s.work.takeA s.cfg.ceiling s.blen p.a else s.work) = w at *
      obtain ⟨q1, q2, q3, q4, -, q6, q7⟩ := w.takeB_spec p.b
      rw [q1, q2, q3, q4, q6, q7]
      exact ⟨a1, a2, a3, a4⟩
    · exact ⟨a1, a2, a3, a4⟩
  obtain ⟨p1, p2, p3, p4⟩ := hkept
  rcases (s.operandsTaken p).stageAfterOperands_cases with e | ⟨e, eo⟩ | ⟨e, eo⟩ | ⟨e, eo⟩ | ⟨e, eo⟩ <;>
    simp only [State.stageOk, State.takeOperands, e]
  · exact ⟨trivial, p2, p3, p4⟩
  · exact ⟨eo, p4 eo⟩
  · exfalso
    have : s.work.op = 1 := by rw [← eo, p1]
    simp [Work.stageAfterOperands, this, takesA, takesB] at k1
  · exact ⟨eo, by simp [p2], by simp [p2, p3]⟩
  · exact ⟨eo, by simp [p2], by simp [p2], by simp [p2, sameKinds]⟩

theorem State.edge_append_inv (hs : s.Inv) (hr : p.rst = false) (hst : s.stage = .append)
    (h : (s.edge p).perform = .next t) : t.Inv := by
  obtain ⟨hb, hk⟩ := hs
  simp only [State.stageOk, hst] at hk
  rw [State.edge_append hr hst] at h
  cases h
  apply State.respond_inv
  · have := s.cfg.three_le_ceiling
    simp only [State.backlogOk, State.appendChunk_bl, State.appendChunk_cfg]
    split
    · simp; omega
    · next hf => simpa using (hk.2 (by simpa using hf)).2
  · exact .inl ⟨hk.1, rfl⟩

theorem State.edge_scanStart_inv (hs : s.Inv) (hr : p.rst = false) (hst : s.stage = .scanStart)
    (h : (s.edge p).perform = .next t) : t.Inv := by
  obtain ⟨hb, hk⟩ := hs
  simp only [State.stageOk, hst] at hk
  rw [State.edge_scanStart hr hst] at h
  rcases State.scan_cases (s := s) (look := .startScan) (fun b => rfl) with
    ⟨hn, hx⟩ | ⟨hn, hx⟩ | ⟨b, hn, hne, hx⟩ <;> rw [hx] at h <;> cases h
  · exact State.respond_inv _ _ hb (.inr (.inl ⟨hk.1, _, rfl⟩))
  · refine ⟨hb, ?_⟩
    have := (List.getElem?_eq_some_iff.mp hn).1
    simp only [State.stageOk]
    refine ⟨hk.1, ?_, by omega, by omega, by simp [slice]⟩
    rw [first_eq_some_iff]
    exact ⟨by omega, hn, by simpa [slice] using hk.2.2⟩
  · refine ⟨hb, ?_⟩
    simp only [State.stageOk, hst, State.scanOn_stage, State.scanOn_work, State.scanOn_bl, State.scanOn_cfg]
    have := (List.getElem?_eq_some_iff.mp hn).1
    exact ⟨hk.1, by omega, notMem_take_succ hk.2.2 hn hne⟩

theorem State.edge_scanEnd_inv (hs : s.Inv) (hr : p.rst = false) (hst : s.stage = .scanEnd)
    (h : (s.edge p).perform = .next t) : t.Inv := by
  obtain ⟨hb, hk⟩ := hs
  simp only [State.stageOk, hst] at hk
  rw [State.edge_scanEnd hr hst] at h
  rcases State.scan_cases (s := s) (look := .endScan) (fun b => rfl) with
    ⟨hn, hx⟩ | ⟨hn, hx⟩ | ⟨b, hn, hne, hx⟩ <;> rw [hx] at h <;> cases h
  · exact State.respond_inv _ _ hb (.inr (.inl ⟨hk.1, _, rfl⟩))
  · refine ⟨hb, ?_⟩
    simp only [State.stageOk]
    refine ⟨hk.1, hk.2.1, ?_, by omega, by simp⟩
    rw [first_eq_some_iff]
    exact ⟨by omega, hn, hk.2.2.2.2⟩
  · refine ⟨hb, ?_⟩
    simp only [State.stageOk, hst, State.scanOn_stage, State.scanOn_work, State.scanOn_bl, State.scanOn_cfg]
    have := (List.getElem?_eq_some_iff.mp hn).1
    exact ⟨hk.1, hk.2.1, by omega, by omega, notMem_slice_succ (by omega) hk.2.2.2.2 hn hne⟩

/-- While a span's bytes are left, an item runs, and no longer. -/
theorem State.edge_items_cases (hr : p.rst = false) (hst : s.stage = .items) :
    (s.span.length ≤ s.work.cursor ∧ s.edge p = .settle (.next s.extract))
      ∨ ∃ i el, decodeItem s.cfg (s.span.drop s.work.cursor) = .ok i ∧ itemElement s.cfg i = some el
        ∧ (s.edge p).perform = .next (s.emit el (s.work.cursor + i.itemLength)) := by
  by_cases hc : s.span.length ≤ s.work.cursor
  · exact .inl ⟨hc, State.edge_extract hr hst hc⟩
  · obtain ⟨b, rest, hd⟩ := List.exists_cons_of_ne_nil (l := s.span.drop s.work.cursor) (by simp; omega)
    obtain ⟨i, hi⟩ := decodeItem_ok s.cfg b rest
    rw [← hd] at hi
    obtain ⟨el, hel, he⟩ := exec_item hi
    exact .inr ⟨i, el, hi, hel, by rw [State.edge_item hr hst hi]; exact he⟩

theorem State.edge_items_inv (hs : s.Inv) (hr : p.rst = false) (hst : s.stage = .items)
    (h : (s.edge p).perform = .next t) : t.Inv := by
  obtain ⟨hb, hk⟩ := hs
  simp only [State.stageOk, hst] at hk
  obtain ⟨k1, k2, k3, k4, k5⟩ := hk
  rcases State.edge_items_cases hr hst with ⟨hc, he⟩ | ⟨i, el, hi, hel, he⟩ <;> rw [he] at h <;> cases h
  · apply State.respond_inv
    · simp only [State.backlogOk] at hb ⊢
      simp; omega
    · exact .inr (.inl ⟨k1, _, rfl⟩)
  · have hl := decodeItem_itemLength hi
    refine ⟨hb, ?_⟩
    have hsp : (s.emit el (s.work.cursor + i.itemLength)).span = s.span := rfl
    simp only [State.stageOk, State.emit_stage, hst, hsp, State.emit_work, State.emit_cfg, State.emit_bl]
    refine ⟨k1, k2, k3, by simp at hl; omega, ?_⟩
    rw [k5, decodeSpan_item hi, hel]
    simp

theorem State.edge_encoding_inv (hs : s.Inv) (hr : p.rst = false) (hst : s.stage = .encoding)
    (h : (s.edge p).perform = .next t) : t.Inv := by
  obtain ⟨hb, hk⟩ := hs
  simp only [State.stageOk, hst] at hk
  cases hp : s.work.aBuf[s.work.pos]? with
  | some r =>
    rw [State.edge_record hr hst hp] at h
    obtain rfl := exec_record h
    refine ⟨hb, ?_⟩
    have hlt := (List.getElem?_eq_some_iff.mp hp).1
    simp only [State.stageOk, State.append_stage, hst, State.append_work, State.append_cfg]
    refine ⟨hk.1, by omega, ?_⟩
    rw [hk.2.2, List.take_add_one, hp, List.map_append, encodeItems_append]
    simp
  | none =>
    rw [State.edge_encoded hr hst hp] at h
    cases h
    exact State.respond_inv _ _ hb (.inr (.inr (.inl ⟨hk.1, _, rfl⟩)))

theorem State.edge_matching_inv (hs : s.Inv) (hr : p.rst = false) (hst : s.stage = .matching)
    (h : (s.edge p).perform = .next t) : t.Inv := by
  obtain ⟨hb, hk⟩ := hs
  simp only [State.stageOk, hst] at hk
  have hverdict : ∀ v, (s.respond (.verdict v)).Inv :=
    fun v => State.respond_inv _ _ hb (.inr (.inr (.inr ⟨hk.1, _, rfl⟩)))
  rw [State.edge_matching hr hst] at h
  cases h
  unfold State.matchPosition
  split
  · exact hverdict false
  · split
    · rename_i hlen _ _ x y hx hy
      split
      · refine ⟨hb, ?_⟩
        have hlt := (List.getElem?_eq_some_iff.mp hx).1
        simp only [State.stageOk, hst]
        refine ⟨hk.1, by omega, fun _ => by simpa using hlen, ?_⟩
        rw [List.take_add_one, hx, List.take_add_one, hy]
        simp only [Option.toList, List.map_append, List.map_cons, List.map_nil]
        exact sameKinds_append hk.2.2.2 (by assumption)
      · exact hverdict false
    · exact hverdict true

theorem State.edge_respond_inv (hs : s.Inv) (hr : p.rst = false) (hst : s.stage = .respond)
    (h : (s.edge p).perform = .next t) : t.Inv := by
  obtain ⟨hb, hk⟩ := hs
  simp only [State.stageOk, hst] at hk
  rw [State.edge_respond hr hst] at h
  cases h
  split
  · unfold State.responseTaken
    simp only
    split
    · exact State.finish_inv _ hb
    · rename_i hne
      refine ⟨hb, ?_⟩
      simp only [State.stageOk]
      rcases op_cases s.work.op with h | h | h | h
      · exact absurd (hk.1 h).2 hne
      · exact ⟨.inl h, (hk.2.1 h).mpr hne, hne⟩
      · exact ⟨.inr h, (hk.2.2.1 h).1, hne⟩
      · exact absurd (hk.2.2.2 h) hne
  · exact ⟨hb, by simpa [State.stageOk, hst] using hk⟩

theorem State.edge_result_inv (hs : s.Inv) (hr : p.rst = false) (hst : s.stage = .result)
    (h : (s.edge p).perform = .next t) : t.Inv := by
  obtain ⟨hb, hk⟩ := hs
  simp only [State.stageOk, hst] at hk
  rw [State.edge_result hr hst] at h
  cases h
  split
  · unfold State.resultTaken
    split
    · exact State.finish_inv _ hb
    · exact State.finish_inv _ hb
    · refine ⟨hb, ?_⟩
      simp only [State.stageOk, hst]
      exact ⟨hk.1, hk.2.1, fun he => by simp_all⟩
  · exact ⟨hb, by simpa [State.stageOk, hst] using hk⟩

/-- One edge keeps the invariant, whatever the pins. -/
theorem State.edge_inv (hs : s.Inv) (h : (s.edge p).perform = .next t) : t.Inv := by
  cases hr : p.rst with
  | true =>
    rw [State.edge_reset hr] at h
    cases h
    exact s.applyReset_inv
  | false =>
    cases hst : s.stage with
    | idle => exact State.edge_idle_inv hs hr hst h
    | operands => exact State.edge_operands_inv hs hr hst h
    | append => exact State.edge_append_inv hs hr hst h
    | scanStart => exact State.edge_scanStart_inv hs hr hst h
    | scanEnd => exact State.edge_scanEnd_inv hs hr hst h
    | items => exact State.edge_items_inv hs hr hst h
    | encoding => exact State.edge_encoding_inv hs hr hst h
    | matching => exact State.edge_matching_inv hs hr hst h
    | respond => exact State.edge_respond_inv hs hr hst h
    | result => exact State.edge_result_inv hs hr hst h

end

end Sys2Proof.Machine
end

