-- ==== Sys2Proof/Laws/PerInstr.lean ====
section
/-! SUPPORT. Decoding what the encoder wrote, one lemma per constructor of Instr. -/

namespace Sys2Proof.Laws.RoundTrip

open Sys2Proof

/-- Under every configuration, a well-formed instruction is read back from its own words. -/
def Statement (i : Instr) : Prop := ∀ c : Cfg, i.wf c = true → decode c (encode c i) = .ok i

theorem feed (chunk : List Byte) : Statement (.feed chunk) := by
  intro c _
  simp only [encode, decode, decodeCommand, map_byteRecord_byte]
  rfl

theorem tryDecode : Statement .tryDecode := fun _ _ => rfl

theorem encode (els : Message) : Statement (.encode els) := by
  intro c _
  simp only [Sys2Proof.encode, decode, decodeCommand, map_record_element]
  rfl

theorem matchMsgs (candidate template : Message) : Statement (.matchMsgs candidate template) := by
  intro c _
  simp only [Sys2Proof.encode, decode, decodeCommand, map_record_element]
  rfl

theorem startDelim : Statement .startDelim := by
  intro c _
  simp [Sys2Proof.encode, decode]

theorem endDelim : Statement .endDelim := by
  intro c _
  simp [Sys2Proof.encode, decode]

/-- A numeric item's five bytes, whatever follows them (R62, R69). -/
theorem numeric (c : Cfg) {tag : Byte} (ht : c.isTag tag = true) (w : Word) (rest : List Byte) :
    decodeItem c (tag :: bytesOfWord w ++ rest) = .ok (numericItem c tag w) := by
  simp [decodeItem, bytesOfWord, ht, c.codeOf_of_isTag ht, wordOfBytes_bytesOfWord]

theorem f32Item (w : Word) : Statement (.f32Item w) := by
  intro c _
  simpa [Sys2Proof.encode, decode, numericItem] using numeric c c.isTag_bFloat w []

theorem u32Item (w : Word) : Statement (.u32Item w) := by
  intro c _
  simpa [Sys2Proof.encode, decode, numericItem, c.bUint_ne_bFloat] using numeric c c.isTag_bUint w []

theorem i32Item (w : Word) : Statement (.i32Item w) := by
  intro c _
  simpa [Sys2Proof.encode, decode, numericItem, c.bInt_ne_bFloat, c.bInt_ne_bUint] using numeric c c.isTag_bInt w []

theorem truncItem (tag : Byte) (rest : List Byte) : Statement (.truncItem tag rest) := by
  intro c h
  simp only [Instr.wf, Bool.and_eq_true, decide_eq_true_eq] at h
  exact decodeItem_trunc c h.1 h.2

theorem codeItem (b : Byte) : Statement (.codeItem b) := by
  intro c h
  simp only [Instr.wf, Bool.and_eq_true, Bool.not_eq_true'] at h
  simp [Sys2Proof.encode, decode, decodeItem, h.1, h.2]

theorem unknownByte (b : Byte) : Statement (.unknownByte b) := by
  intro c h
  simp only [Instr.wf, Bool.not_eq_true'] at h
  have ht : c.isTag b = false := by
    by_contra hc
    simp [c.isDef_of_isTag (by simpa using hc)] at h
  simp [Sys2Proof.encode, decode, decodeItem, h, ht]

theorem encCode (code : Byte) : Statement (.encCode code) := by
  intro c _
  simp [Sys2Proof.encode, decode, decodeRecord]

theorem encF32 (w : Word) : Statement (.encF32 w) := fun _ _ => rfl

theorem encU32 (w : Word) : Statement (.encU32 w) := fun _ _ => rfl

theorem encI32 (w : Word) : Statement (.encI32 w) := fun _ _ => rfl

theorem poll (chunk : List Byte) : Statement (.poll chunk) := fun _ _ => rfl

theorem drain : Statement .drain := fun _ _ => rfl

end Sys2Proof.Laws.RoundTrip
end

