-- ==== Sys2Proof/Laws/Port.lean ====
section
/-! SUPPORT. A command carried by a host on the ports, edge by edge, against the command taken whole (R7, D10): what
the machine holds at each stage while the beats of streams A and B are still to come, and the edges it has left. -/

namespace Sys2Proof.Machine.PortLaw

open Host

/-! ### The host's beats -/

theorem valueInputs_cons (x : Record) (rest : List Record) :
    valueInputs (x :: rest) = ⟨false, decide (rest = []), x.kind, x.data⟩ :: valueInputs rest := by
  cases rest <;> simp [valueInputs]

theorem valueInputs_eq_cons {left : List Record} {b : Beat} {rest : List Beat} (hl : left ≠ [])
    (h : valueInputs left = b :: rest) :
    ∃ x more, left = x :: more ∧ b = ⟨false, decide (more = []), x.kind, x.data⟩ ∧ rest = valueInputs more := by
  obtain ⟨x, more, rfl⟩ := List.exists_cons_of_ne_nil hl
  rw [valueInputs_cons] at h
  simp at h
  exact ⟨x, more, rfl, h.1.symm, h.2.symm⟩

theorem valueInputs_ne_nil {left : List Record} (h : left ≠ []) : valueInputs left ≠ [] := by
  obtain ⟨x, more, rfl⟩ := List.exists_cons_of_ne_nil h
  rw [valueInputs_cons]
  simp

theorem inputBeats_ne_nil (xs : List Record) : inputBeats xs ≠ [] := by
  unfold inputBeats
  split
  · simp
  · exact valueInputs_ne_nil (by assumption)

/-! ### What the command taken whole does -/

section
variable (s t : State) (op : BitVec 2) (a b : List Record) (r : Response)

/-- Command by command: the backlog it leaves and its response. -/
def Target : Prop :=
  (op = 0 ∧ t.bl = feedBacklog s.cfg s.bl (a.map Record.byte) ∧ r = .done)
  ∨ (op = 1 ∧ t.bl = (tryDecode s.cfg s.bl).1 ∧ r = .decoded (tryDecode s.cfg s.bl).2)
  ∨ (op = 2 ∧ t.bl = s.bl ∧ (∀ x ∈ a, x.element.wellTyped s.cfg = true)
      ∧ r = .bytes (encodeFrame s.cfg (a.map Record.element)))
  ∨ (op = 3 ∧ t.bl = s.bl ∧ r = .verdict (matchResult (a.map Record.element) (b.map Record.element)))

theorem target_of_exec (h : exec (decodeCommand op a b) s = .next t) (hr : t.sent = s.sent ++ [r]) :
    Target s t op a b r := by
  rcases op_cases op with rfl | rfl | rfl | rfl
  · cases h
    simp [State.feed] at hr
    exact .inl ⟨rfl, rfl, hr.symm⟩
  · cases h
    simp [State.tryDecode] at hr
    exact .inr (.inl ⟨rfl, rfl, hr.symm⟩)
  · have h' : execEncode (a.map Record.element) s = .next t := h
    unfold execEncode at h'
    split at h'
    · cases h'
      simp [State.answer] at hr
      rename_i hw
      exact .inr (.inr (.inl ⟨rfl, rfl, by simpa using hw, hr.symm⟩))
    · cases h'
  · cases h
    simp [State.answer] at hr
    exact .inr (.inr (.inr ⟨rfl, rfl, hr.symm⟩))

/-! ### Where the machine has got to -/

/-- Stream A, with the beats `ra` still to come: all taken; or the empty sequence not yet; or a prefix `got`. FEED
stores a prefix only until its latch is set (R33). -/
def OnA (w : Work) (ra : List Beat) : Prop :=
  (w.aDone = true ∧ ra = [] ∧ (op ≠ 0 → w.aBuf = a)
    ∧ (op = 0 → (w.feedOver = false → w.aBuf = a ∧ s.bl.length + a.length < s.cfg.ceiling)
      ∧ (w.feedOver = true → s.cfg.ceiling ≤ s.bl.length + a.length)))
  ∨ (w.aDone = false
    ∧ ((a = [] ∧ ra = inputBeats [] ∧ w.aBuf = [] ∧ w.feedCount = 0 ∧ w.feedOver = false)
      ∨ ∃ got left, left ≠ [] ∧ a = got ++ left ∧ ra = valueInputs left ∧ (op ≠ 0 → w.aBuf = got)
        ∧ (op = 0 → (w.feedOver = false → w.aBuf = got ∧ w.feedCount = got.length)
          ∧ (w.feedOver = true → s.cfg.ceiling ≤ s.bl.length + got.length))))

/-- Stream B, with the beats `rb` still to come. -/
def OnB (w : Work) (rb : List Beat) : Prop :=
  (w.bDone = true ∧ rb = [] ∧ w.bBuf = b)
  ∨ (w.bDone = false
    ∧ ((b = [] ∧ rb = inputBeats [] ∧ w.bBuf = [])
      ∨ ∃ left, left ≠ [] ∧ b = w.bBuf ++ left ∧ rb = valueInputs left))

/-- The machine `u` between the command's acceptance in `s` and its end, with the beats `ra` and `rb` still to come. -/
def Track (u : State) (ra rb : List Beat) : Prop :=
  u.Inv ∧ u.cfg = s.cfg ∧ u.script = [] ∧ u.sent = s.sent ∧
  match u.stage with
  | .idle => ra = [] ∧ rb = [] ∧ u.bl = t.bl ∧ u.taken = s.taken ++ r.taken op
  | .operands => u.work.op = op ∧ u.bl = s.bl ∧ u.taken = s.taken
      ∧ (if takesA op then OnA s op a u.work ra else ra = [])
      ∧ (if takesB op then OnB b u.work rb else rb = [])
  | .result => ra = [] ∧ rb = [] ∧ u.work.op = op ∧ u.bl = t.bl
      ∧ u.taken ++ u.work.rBuf.map Taken.result = s.taken ++ r.taken op
  | .respond => ra = [] ∧ rb = [] ∧ u.work.op = op ∧ u.bl = t.bl ∧ u.taken = s.taken
      ∧ u.work.rspFlag = r.flag ∧ u.work.rBuf = r.stream
  | .append => ra = [] ∧ rb = [] ∧ u.work.op = op ∧ u.bl = s.bl ∧ u.taken = s.taken
      ∧ (u.work.feedOver = false → u.work.aBuf = a ∧ s.bl.length + a.length < s.cfg.ceiling)
      ∧ (u.work.feedOver = true → s.cfg.ceiling ≤ s.bl.length + a.length)
  | .scanStart => ra = [] ∧ rb = [] ∧ u.work.op = op ∧ u.bl = s.bl ∧ u.taken = s.taken
  | .scanEnd => ra = [] ∧ rb = [] ∧ u.work.op = op ∧ u.bl = s.bl ∧ u.taken = s.taken
  | .items => ra = [] ∧ rb = [] ∧ u.work.op = op ∧ u.bl = s.bl ∧ u.taken = s.taken
  | .encoding => ra = [] ∧ rb = [] ∧ u.work.op = op ∧ u.bl = s.bl ∧ u.taken = s.taken ∧ u.work.aBuf = a
  | .matching => ra = [] ∧ rb = [] ∧ u.work.op = op ∧ u.bl = s.bl ∧ u.taken = s.taken ∧ u.work.aBuf = a
      ∧ u.work.bBuf = b

/-- A bound on the edges left, the operands taken and the host ready. -/
def edgesLeft (u : State) : Nat :=
  match u.stage with
  | .idle => 0
  | .result => u.work.rBuf.length
  | .respond => u.work.rBuf.length + 1
  | .append => r.stream.length + 2
  | .items => r.stream.length + 2 + (u.span.length - u.work.cursor)
  | .scanEnd => r.stream.length + 3 + s.bl.length + (s.bl.length - u.work.cursor)
  | .scanStart => r.stream.length + 4 + 2 * s.bl.length + (s.bl.length - u.work.cursor)
  | .encoding => r.stream.length + 2 + (a.length - u.work.pos)
  | .matching => r.stream.length + 2 + (a.length - u.work.pos)
  | .operands => 0

/-- One edge on which no operand is offered: the machine stays on track, and gets on where the host is ready. -/
def Moves (u : State) (p : Pins) : Prop :=
  ∃ u', (u.edge p).perform = .next u' ∧ u'.edges = u.edges ∧ Track s t op a b r u' [] [] ∧ u'.stage ≠ .operands
    ∧ (u.stage ≠ .idle → p.rspReady = true → p.rReady = true → edgesLeft s a r u' < edgesLeft s a r u)

end

section
variable {s t : State} {op : BitVec 2} {a b : List Record} {r : Response} {u : State} {p : Pins}

/-! ### Edges without operands, stage by stage -/

/-- The edge that makes the response ready. -/
theorem Moves.answer {v : State} {x : Response} (he : (u.edge p).perform = .next (v.respond x)) (hinv : u.Inv)
    (h1 : v.cfg = s.cfg) (h2 : v.script = []) (h3 : v.sent = s.sent) (h4 : v.work.op = op) (h5 : v.bl = t.bl)
    (h6 : v.taken = s.taken) (h7 : v.edges = u.edges) (hx : x = r)
    (hm : r.stream.length + 1 < edgesLeft s a r u) : Moves s t op a b r u p := by
  subst hx
  refine ⟨_, he, h7, ⟨State.edge_inv hinv he, h1, h2, h3, rfl, rfl, h4, h5, h6, rfl, rfl⟩, by simp, fun _ _ _ => ?_⟩
  simpa [edgesLeft] using hm

theorem idle_moves (h : Track s t op a b r u [] []) (hs : u.stage = .idle) (hr : p.rst = false)
    (hc : p.cmdValid = false) : Moves s t op a b r u p := by
  have he : (u.edge p).perform = .next u := by rw [State.edge_idle hr hs, hc]; rfl
  exact ⟨u, he, rfl, h, by simp [hs], fun h => absurd hs h⟩

theorem append_moves (hT : Target s t op a b r) (h : Track s t op a b r u [] []) (hs : u.stage = .append)
    (hr : p.rst = false) : Moves s t op a b r u p := by
  obtain ⟨hinv, k1, k2, k3, k4⟩ := h
  have hstage := hinv.2
  simp only [State.stageOk, hs] at hstage
  simp only [hs] at k4
  obtain ⟨-, -, j1, j2, j3, j4, j5⟩ := k4
  have h0 : op = 0 := by rw [← j1]; exact hstage.1
  subst h0
  rcases hT with ⟨-, tb, tr⟩ | ⟨h, -⟩ | ⟨h, -⟩ | ⟨h, -⟩ <;> try exact absurd h (by decide)
  have he : (u.edge p).perform = .next (u.appendChunk.respond .done) := by rw [State.edge_append hr hs]; rfl
  refine .answer he hinv k1 k2 k3 j1 ?_ j3 rfl tr.symm (by simp [edgesLeft, hs])
  simp only [State.appendChunk_bl, tb, j2, feedBacklog]
  cases hf : u.work.feedOver with
  | true => simp [j5 hf]
  | false => simp [j4 hf]

theorem scanStart_moves (hT : Target s t op a b r) (h : Track s t op a b r u [] []) (hs : u.stage = .scanStart)
    (hr : p.rst = false) : Moves s t op a b r u p := by
  obtain ⟨hinv, k1, k2, k3, k4⟩ := h
  have hstage := hinv.2
  simp only [State.stageOk, hs] at hstage
  simp only [hs] at k4
  obtain ⟨-, -, j1, j2, j3⟩ := k4
  have h1 : op = 1 := by rw [← j1]; exact hstage.1
  subst h1
  rcases hT with ⟨h, -⟩ | ⟨-, tb, tr⟩ | ⟨h, -⟩ | ⟨h, -⟩ <;> try exact absurd h (by decide)
  have hedge := State.edge_scanStart hr hs
  rcases State.scan_cases (s := u) (look := .startScan) (fun b => rfl) with
    ⟨hn, hx⟩ | ⟨hn, hx⟩ | ⟨y, hn, hne, hx⟩ <;> rw [hx] at hedge
  · have hno : s.cfg.bStart ∉ s.bl := by
      have h2 := hstage.2.2
      rwa [List.take_of_length_le (List.getElem?_eq_none_iff.mp hn), k1, j2] at h2
    have hd := tryDecode_no_start s.cfg hno
    refine .answer (by rw [hedge]; rfl) hinv k1 k2 k3 j1 (by rw [tb, hd, j2]) j3 rfl (by rw [tr, hd]) ?_
    simp [edgesLeft, hs, tr, hd, Response.stream]
    omega
  · have he : (u.edge p).perform = exec .startDelim u := by rw [hedge]; rfl
    refine ⟨_, he, rfl, ⟨State.edge_inv hinv he, k1, k2, k3, rfl, rfl, j1, j2, j3⟩, by simp, fun _ _ _ => ?_⟩
    have := (List.getElem?_eq_some_iff.mp hn).1
    rw [j2] at this
    simp only [edgesLeft, hs]
    omega
  · have he : (u.edge p).perform = .next u.scanOn := by rw [hedge]; rfl
    refine ⟨_, he, rfl, ⟨State.edge_inv hinv he, k1, k2, k3, ?_⟩, by simp [hs], fun _ _ _ => ?_⟩
    · simp only [State.scanOn_stage, hs]
      exact ⟨trivial, trivial, j1, j2, j3⟩
    · have := (List.getElem?_eq_some_iff.mp hn).1
      rw [j2] at this
      simp only [edgesLeft, hs, State.scanOn_stage, State.scanOn_work]
      omega

theorem scanEnd_moves (hT : Target s t op a b r) (h : Track s t op a b r u [] []) (hs : u.stage = .scanEnd)
    (hr : p.rst = false) : Moves s t op a b r u p := by
  obtain ⟨hinv, k1, k2, k3, k4⟩ := h
  have hstage := hinv.2
  simp only [State.stageOk, hs] at hstage
  simp only [hs] at k4
  obtain ⟨-, -, j1, j2, j3⟩ := k4
  have h1 : op = 1 := by rw [← j1]; exact hstage.1
  subst h1
  rcases hT with ⟨h, -⟩ | ⟨-, tb, tr⟩ | ⟨h, -⟩ | ⟨h, -⟩ <;> try exact absurd h (by decide)
  have hedge := State.edge_scanEnd hr hs
  rcases State.scan_cases (s := u) (look := .endScan) (fun b => rfl) with
    ⟨hn, hx⟩ | ⟨hn, hx⟩ | ⟨y, hn, hne, hx⟩ <;> rw [hx] at hedge
  · have hno : first u.bl u.cfg.bEnd (u.work.startIdx + 1) = none := by
      rw [first_eq_none_iff]
      have h2 := hstage.2.2.2.2
      unfold slice at h2
      rwa [List.take_of_length_le (List.getElem?_eq_none_iff.mp hn)] at h2
    have hd : tryDecode s.cfg s.bl = (s.bl, none) := by
      rw [← k1, ← j2]
      simp [tryDecode, hstage.2.1, hno]
    refine .answer (by rw [hedge]; rfl) hinv k1 k2 k3 j1 (by rw [tb, hd, j2]) j3 rfl (by rw [tr, hd]) ?_
    simp [edgesLeft, hs, tr, hd, Response.stream]
    omega
  · have he : (u.edge p).perform = exec .endDelim u := by rw [hedge]; rfl
    refine ⟨_, he, rfl, ⟨State.edge_inv hinv he, k1, k2, k3, rfl, rfl, j1, j2, j3⟩, by simp, fun _ _ _ => ?_⟩
    have := (List.getElem?_eq_some_iff.mp hn).1
    rw [j2] at this
    simp [edgesLeft, hs, State.span, slice, j2]
    omega
  · have he : (u.edge p).perform = .next u.scanOn := by rw [hedge]; rfl
    refine ⟨_, he, rfl, ⟨State.edge_inv hinv he, k1, k2, k3, ?_⟩, by simp [hs], fun _ _ _ => ?_⟩
    · simp only [State.scanOn_stage, hs]
      exact ⟨trivial, trivial, j1, j2, j3⟩
    · have := (List.getElem?_eq_some_iff.mp hn).1
      rw [j2] at this
      simp only [edgesLeft, hs, State.scanOn_stage, State.scanOn_work]
      omega

theorem items_moves (hT : Target s t op a b r) (h : Track s t op a b r u [] []) (hs : u.stage = .items)
    (hr : p.rst = false) : Moves s t op a b r u p := by
  obtain ⟨hinv, k1, k2, k3, k4⟩ := h
  have hstage := hinv.2
  simp only [State.stageOk, hs] at hstage
  simp only [hs] at k4
  obtain ⟨-, -, j1, j2, j3⟩ := k4
  obtain ⟨q1, q2, q3, q4, q5⟩ := hstage
  have h1 : op = 1 := by rw [← j1]; exact q1
  subst h1
  rcases hT with ⟨h, -⟩ | ⟨-, tb, tr⟩ | ⟨h, -⟩ | ⟨h, -⟩ <;> try exact absurd h (by decide)
  rcases State.edge_items_cases hr hs with ⟨hcur, hedge⟩ | ⟨i, el, hi, hel, he⟩
  · rw [List.drop_eq_nil_of_le hcur, decodeSpan_nil, List.append_nil] at q5
    have hd : tryDecode s.cfg s.bl = (s.bl.drop (u.work.endIdx + 1), some u.work.msg) := by
      rw [← k1, ← j2, ← q5]
      simp [tryDecode, q2, q3, State.span]
    have he : (u.edge p).perform = .next u.extract := by rw [hedge]; rfl
    refine .answer he hinv k1 k2 k3 j1 (by rw [tb, hd, ← j2]) j3 rfl (by rw [tr, hd]) ?_
    simp [edgesLeft, hs, tr, hd, Response.stream]
    omega
  · have hl := decodeItem_itemLength hi
    refine ⟨_, he, rfl, ⟨State.edge_inv hinv he, k1, k2, k3, ?_⟩, by simp [hs], fun _ _ _ => ?_⟩
    · simp only [State.emit_stage, hs]
      exact ⟨trivial, trivial, j1, j2, j3⟩
    · have hsp : (u.emit el (u.work.cursor + i.itemLength)).span = u.span := rfl
      rw [List.length_drop] at hl
      simp only [edgesLeft, hs, State.emit_stage, State.emit_work, hsp]
      omega

theorem encoding_moves (hT : Target s t op a b r) (h : Track s t op a b r u [] []) (hs : u.stage = .encoding)
    (hr : p.rst = false) : Moves s t op a b r u p := by
  obtain ⟨hinv, k1, k2, k3, k4⟩ := h
  have hstage := hinv.2
  simp only [State.stageOk, hs] at hstage
  simp only [hs] at k4
  obtain ⟨-, -, j1, j2, j3, j4⟩ := k4
  have h1 : op = 2 := by rw [← j1]; exact hstage.1
  subst h1
  rcases hT with ⟨h, -⟩ | ⟨h, -⟩ | ⟨-, tb, tw, tr⟩ | ⟨h, -⟩ <;> try exact absurd h (by decide)
  cases hp : u.work.aBuf[u.work.pos]? with
  | some x =>
    have hlt := (List.getElem?_eq_some_iff.mp hp).1
    have hx : x.element.wellTyped u.cfg = true := by
      rw [k1]
      exact tw x (j4 ▸ List.mem_of_getElem? hp)
    have he : (u.edge p).perform = .next (u.append (encodeItem u.cfg x.element)) := by
      rw [State.edge_record hr hs hp]
      exact exec_record_of_wellTyped hx
    refine ⟨_, he, rfl, ⟨State.edge_inv hinv he, k1, k2, k3, ?_⟩, by simp [hs], fun _ _ _ => ?_⟩
    · simp only [State.append_stage, hs]
      exact ⟨trivial, trivial, j1, j2, j3, j4⟩
    · simp only [edgesLeft, hs, State.append_stage, State.append_work]
      rw [j4] at hlt
      omega
  | none =>
    have ho : frame u.cfg u.work.outBytes = encodeFrame s.cfg (a.map Record.element) := by
      rw [hstage.2.2, List.take_of_length_le (List.getElem?_eq_none_iff.mp hp), j4, k1]
      rfl
    refine .answer (by rw [State.edge_encoded hr hs hp, ho]; rfl) hinv k1 k2 k3 j1 (by rw [tb, j2]) j3 rfl tr.symm ?_
    simp [edgesLeft, hs, tr]
    omega

theorem matching_moves (hT : Target s t op a b r) (h : Track s t op a b r u [] []) (hs : u.stage = .matching)
    (hr : p.rst = false) : Moves s t op a b r u p := by
  obtain ⟨hinv, k1, k2, k3, k4⟩ := h
  have hstage := hinv.2
  simp only [State.stageOk, hs] at hstage
  simp only [hs] at k4
  obtain ⟨-, -, j1, j2, j3, j4, j5⟩ := k4
  obtain ⟨q1, q2, q3, q4⟩ := hstage
  have h1 : op = 3 := by rw [← j1]; exact q1
  subst h1
  rcases hT with ⟨h, -⟩ | ⟨h, -⟩ | ⟨h, -⟩ | ⟨-, tb, tr⟩ <;> try exact absurd h (by decide)
  have hverdict : ∀ v : Bool, u.matchPosition = u.respond (.verdict v) →
      v = matchResult (a.map Record.element) (b.map Record.element) → Moves s t 3 a b r u p := by
    intro v hv hm
    refine .answer (by rw [State.edge_matching hr hs, hv]; rfl) hinv k1 k2 k3 j1 (by rw [tb, j2]) j3 rfl
      (by rw [tr, hm]) ?_
    simp [edgesLeft, hs, tr, Response.stream]
    omega
  by_cases hlen : u.work.aBuf.length = u.work.bBuf.length
  · cases hx : u.work.aBuf[u.work.pos]? with
    | none =>
      apply hverdict true (by simp [State.matchPosition, hlen, hx])
      have hn := List.getElem?_eq_none_iff.mp hx
      rw [List.take_of_length_le hn, List.take_of_length_le (hlen ▸ hn), j4, j5, sameKinds_iff] at q4
      exact ((matchResult_iff _ _).mpr q4).symm
    | some x =>
      have hlt := (List.getElem?_eq_some_iff.mp hx).1
      obtain ⟨y, hy⟩ : ∃ y, u.work.bBuf[u.work.pos]? = some y := ⟨_, List.getElem?_eq_getElem (hlen ▸ hlt)⟩
      by_cases hk : x.element.kind = y.element.kind
      · have he : (u.edge p).perform = .next { u with work := { u.work with pos := u.work.pos + 1 } } := by
          rw [State.edge_matching hr hs]
          simp [State.matchPosition, hlen, hx, hy, hk]
        refine ⟨_, he, rfl, ⟨State.edge_inv hinv he, k1, k2, k3, ?_⟩, by simp [hs], fun _ _ _ => ?_⟩
        · simp only [hs]
          exact ⟨trivial, trivial, j1, j2, j3, j4, j5⟩
        · simp only [edgesLeft, hs]
          rw [j4] at hlt
          omega
      · apply hverdict false (by simp [State.matchPosition, hlen, hx, hy, hk])
        by_contra hc
        have ht : matchResult (a.map Record.element) (b.map Record.element) = true := by
          cases hm : matchResult (a.map Record.element) (b.map Record.element) <;> simp_all
        rw [matchResult_iff, ← j4, ← j5] at ht
        have := congrArg (fun l => l[u.work.pos]?) ht
        simp [hx, hy] at this
        exact hk this
  · apply hverdict false (by simp [State.matchPosition, hlen])
    rw [← j4, ← j5]
    simp [matchResult, hlen]

theorem respond_moves (h : Track s t op a b r u [] []) (hs : u.stage = .respond) (hr : p.rst = false) :
    Moves s t op a b r u p := by
  have hkeep := h
  obtain ⟨hinv, k1, k2, k3, k4⟩ := h
  simp only [hs] at k4
  obtain ⟨-, -, j1, j2, j3, j4, j5⟩ := k4
  have hedge := State.edge_respond hr hs
  cases hp : p.rspReady with
  | false => exact ⟨u, by rw [hedge, hp]; rfl, rfl, hkeep, by simp [hs], fun _ h => by simp [hp] at h⟩
  | true =>
    have he : (u.edge p).perform = .next u.responseTaken := by rw [hedge, hp]; rfl
    have hinv' := State.edge_inv hinv he
    by_cases hnil : u.work.rBuf = []
    · have hrt : u.responseTaken
          = { u with taken := u.taken ++ [Taken.response u.work.op u.work.rspFlag] }.finish := by
        simp [State.responseTaken, hnil]
      rw [hrt] at he hinv'
      refine ⟨_, he, rfl, ⟨hinv', k1, k2, k3, rfl, rfl, j2, ?_⟩, by simp, by simp [edgesLeft, hs]⟩
      simp only [State.finish_taken]
      rw [j1, j3, j4, Response.taken, ← j5, hnil]
      rfl
    · have hrt : u.responseTaken
          = { u with taken := u.taken ++ [Taken.response u.work.op u.work.rspFlag], stage := .result } := by
        simp [State.responseTaken, hnil]
      rw [hrt] at he hinv'
      refine ⟨_, he, rfl, ⟨hinv', k1, k2, k3, rfl, rfl, j1, j2, ?_⟩, by simp, by simp [edgesLeft, hs]⟩
      simp only
      rw [j1, j3, j4, Response.taken, ← j5]
      simp

theorem result_moves (h : Track s t op a b r u [] []) (hs : u.stage = .result) (hr : p.rst = false) :
    Moves s t op a b r u p := by
  have hkeep := h
  obtain ⟨hinv, k1, k2, k3, k4⟩ := h
  have hstage := hinv.2
  simp only [State.stageOk, hs] at hstage
  simp only [hs] at k4
  obtain ⟨-, -, j1, j2, j3⟩ := k4
  have hedge := State.edge_result hr hs
  cases hp : p.rReady with
  | false => exact ⟨u, by rw [hedge, hp]; rfl, rfl, hkeep, by simp [hs], fun _ _ h => by simp [hp] at h⟩
  | true =>
    have he : (u.edge p).perform = .next u.resultTaken := by rw [hedge, hp]; rfl
    have hinv' := State.edge_inv hinv he
    rcases hb : u.work.rBuf with _ | ⟨x, _ | ⟨y, rest⟩⟩
    · exact absurd hb hstage.2.2
    · have hrt : u.resultTaken = { u with taken := u.taken ++ [Taken.result x] }.finish := by
        simp [State.resultTaken, hb]
      rw [hrt] at he hinv'
      refine ⟨_, he, rfl, ⟨hinv', k1, k2, k3, rfl, rfl, j2, ?_⟩, by simp, fun _ _ _ => ?_⟩
      · simpa [hb] using j3
      · simp [edgesLeft, hs, hb]
    · have hrt : u.resultTaken
          = { u with taken := u.taken ++ [Taken.result x], work := { u.work with rBuf := y :: rest } } := by
        simp [State.resultTaken, hb]
      rw [hrt] at he hinv'
      refine ⟨_, he, rfl, ⟨hinv', k1, k2, k3, ?_⟩, by simp [hs], fun _ _ _ => ?_⟩
      · simp only [hs]
        exact ⟨trivial, trivial, j1, j2, by simpa [hb] using j3⟩
      · simp [edgesLeft, hs, hb]

/-- One edge of a machine that has its operands. -/
theorem moves (hT : Target s t op a b r) (h : Track s t op a b r u [] []) (hst : u.stage ≠ .operands)
    (hr : p.rst = false) (hc : p.cmdValid = false) : Moves s t op a b r u p := by
  cases hs : u.stage with
  | idle => exact idle_moves h hs hr hc
  | operands => exact absurd hs hst
  | append => exact append_moves hT h hs hr
  | scanStart => exact scanStart_moves hT h hs hr
  | scanEnd => exact scanEnd_moves hT h hs hr
  | items => exact items_moves hT h hs hr
  | encoding => exact encoding_moves hT h hs hr
  | matching => exact matching_moves hT h hs hr
  | respond => exact respond_moves h hs hr
  | result => exact result_moves h hs hr

/-! ### Edges that bring operands -/

/-- FEED's running total after one more byte (R33). -/
theorem takeFeedByte_total {ceiling blen : Nat} {w : Work} {got : List Record} (x : Record)
    (h1 : w.feedOver = false → w.aBuf = got ∧ w.feedCount = got.length)
    (h2 : w.feedOver = true → ceiling ≤ blen + got.length) :
    ((w.takeFeedByte ceiling blen x).feedOver = false →
        (w.takeFeedByte ceiling blen x).aBuf = got ++ [x]
          ∧ (w.takeFeedByte ceiling blen x).feedCount = (got ++ [x]).length
          ∧ blen + (got ++ [x]).length < ceiling)
      ∧ ((w.takeFeedByte ceiling blen x).feedOver = true → ceiling ≤ blen + (got ++ [x]).length) := by
  unfold Work.takeFeedByte
  split
  · rename_i hf
    refine ⟨fun h => by simp [hf] at h, fun _ => ?_⟩
    have := h2 hf
    simp
    omega
  · rename_i hf
    obtain ⟨e1, e2⟩ := h1 (by simpa using hf)
    split
    · refine ⟨fun h => by simp at h, fun _ => ?_⟩
      simp
      omega
    · refine ⟨fun _ => ⟨by simp [e1], by simp [e2], by simp; omega⟩, fun h => ?_⟩
      simp at h
      simp [h] at hf

theorem onA_take (hb0 : s.backlogOk) {w : Work} {bt : Beat} {ra : List Beat} (hop : w.op = op)
    (h : OnA s op a w (bt :: ra)) :
    w.aDone = false ∧ OnA s op a (w.takeA s.cfg.ceiling s.bl.length bt) ra := by
  rcases h with ⟨_, h, _⟩ | ⟨hd, ⟨ha, h, hb, hc, ho⟩ | ⟨got, left, hl, hg, hv, h1, h2⟩⟩
  · cases h
  · refine ⟨hd, ?_⟩
    simp [inputBeats] at h
    obtain ⟨rfl, rfl⟩ := h
    have ht : w.takeA s.cfg.ceiling s.bl.length ⟨true, true, 0#2, 0#32⟩ = { w with aDone := true } := by
      simp [Work.takeA, hb, hc]
    rw [ht]
    refine .inl ⟨rfl, rfl, fun _ => by simp [hb, ha], fun _ => ⟨fun _ => ?_, fun h => ?_⟩⟩
    · exact ⟨by simp [hb, ha], by simpa [ha, State.backlogOk] using hb0⟩
    · simp [ho] at h
  · refine ⟨hd, ?_⟩
    obtain ⟨x, more, rfl, rfl, rfl⟩ := valueInputs_eq_cons hl hv.symm
    by_cases h0 : op = 0
    · have ht : w.takeA s.cfg.ceiling s.bl.length ⟨false, decide (more = []), x.kind, x.data⟩
          = { w.takeFeedByte s.cfg.ceiling s.bl.length x with aDone := decide (more = []) } := by
        simp [Work.takeA, hop.trans h0]
      rw [ht]
      have key := takeFeedByte_total x (h2 h0).1 (h2 h0).2
      by_cases hm : more = []
      · subst hm
        refine .inl ⟨rfl, rfl, fun h => absurd h0 h, fun _ => ⟨fun hf => ?_, fun hf => ?_⟩⟩
        · rw [hg]
          exact ⟨(key.1 hf).1, (key.1 hf).2.2⟩
        · rw [hg]
          exact key.2 hf
      · exact .inr ⟨by simp [hm], .inr ⟨got ++ [x], more, hm, by simp [hg], rfl, fun h => absurd h0 h,
          fun _ => ⟨fun hf => ⟨(key.1 hf).1, (key.1 hf).2.1⟩, key.2⟩⟩⟩
    · have hw0 : w.op ≠ 0 := by rw [hop]; exact h0
      have ht : w.takeA s.cfg.ceiling s.bl.length ⟨false, decide (more = []), x.kind, x.data⟩
          = { w with aBuf := w.aBuf ++ [x], aDone := decide (more = []) } := by
        simp only [Work.takeA, if_neg hw0]
        rfl
      rw [ht]
      have hbuf := h1 h0
      by_cases hm : more = []
      · subst hm
        exact .inl ⟨rfl, rfl, fun _ => by simp [hbuf, hg], fun h => absurd h h0⟩
      · exact .inr ⟨by simp [hm], .inr ⟨got ++ [x], more, hm, by simp [hg], rfl, fun _ => by simp [hbuf],
          fun h => absurd h h0⟩⟩

theorem onB_take {w : Work} {bt : Beat} {rb : List Beat} (h : OnB b w (bt :: rb)) :
    w.bDone = false ∧ OnB b (w.takeB bt) rb := by
  rcases h with ⟨_, h, _⟩ | ⟨hd, ⟨ha, h, hb⟩ | ⟨left, hl, hg, hv⟩⟩
  · cases h
  · refine ⟨hd, ?_⟩
    simp [inputBeats] at h
    obtain ⟨rfl, rfl⟩ := h
    exact .inl ⟨by simp [Work.takeB, hb], rfl, by simp [Work.takeB, ha, hb]⟩
  · refine ⟨hd, ?_⟩
    obtain ⟨x, more, rfl, rfl, rfl⟩ := valueInputs_eq_cons hl hv.symm
    have ht : w.takeB ⟨false, decide (more = []), x.kind, x.data⟩
        = { w with bBuf := w.bBuf ++ [x], bDone := decide (more = []) } := rfl
    rw [ht]
    by_cases hm : more = []
    · subst hm
      exact .inl ⟨rfl, rfl, by simp [hg]⟩
    · exact .inr ⟨by simp [hm], .inr ⟨more, hm, by simp [hg], rfl⟩⟩

theorem onA_congr {w w' : Work} {ra : List Beat} (h : OnA s op a w ra) (h1 : w'.aDone = w.aDone)
    (h2 : w'.aBuf = w.aBuf) (h3 : w'.feedCount = w.feedCount) (h4 : w'.feedOver = w.feedOver) :
    OnA s op a w' ra := by
  unfold OnA
  rw [h1, h2, h3, h4]
  exact h

theorem onB_congr {w w' : Work} {rb : List Beat} (h : OnB b w rb) (h1 : w'.bDone = w.bDone)
    (h2 : w'.bBuf = w.bBuf) : OnB b w' rb := by
  unfold OnB
  rw [h1, h2]
  exact h

/-- One edge while the operands are taken, with the beats it offers gone from those to come. -/
theorem operands_track (hb0 : s.backlogOk) {ra rb ra' rb' : List Beat} (h : Track s t op a b r u ra rb)
    (hst : u.stage = .operands) (hr : p.rst = false)
    (hA : (if p.aValid then [p.a] else []) ++ ra' = ra) (hB : (if p.bValid then [p.b] else []) ++ rb' = rb) :
    ∃ u', (u.edge p).perform = .next u' ∧ u'.edges = u.edges ∧ Track s t op a b r u' ra' rb' := by
  obtain ⟨hinv, k1, k2, k3, k4⟩ := h
  simp only [hst] at k4
  obtain ⟨j1, j2, j3, j4, j5⟩ := k4
  have hw' : ∃ w', u.operandsTaken p = w' ∧ w'.op = op ∧ (if takesA op then OnA s op a w' ra' else ra' = [])
      ∧ (if takesB op then OnB b w' rb' else rb' = []) := by
    obtain ⟨w, hw, hwop, hwA, hwb1, hwb2⟩ : ∃ w,
        (if p.aValid && u.aReady then u.work.takeA u.cfg.ceiling u.blen p.a else u.work) = w
        ∧ w.op = op ∧ (if takesA op then OnA s op a w ra' else ra' = []) ∧ w.bDone = u.work.bDone
        ∧ w.bBuf = u.work.bBuf := by
      cases hv : p.aValid with
      | false =>
        simp [hv] at hA
        subst hA
        exact ⟨u.work, by simp, j1, j4, rfl, rfl⟩
      | true =>
        simp [hv] at hA
        subst hA
        by_cases hta : takesA op = true
        · rw [if_pos hta] at j4
          obtain ⟨hd, hon⟩ := onA_take hb0 j1 j4
          obtain ⟨q1, -, -, q4, q5, -⟩ := u.work.takeA_spec s.cfg.ceiling s.bl.length p.a
          refine ⟨_, ?_, q1.trans j1, by rw [if_pos hta]; exact hon, q5, q4⟩
          have : u.aReady = true := by simp [State.aReady, hst, j1, hta, hd]
          rw [this, k1, State.blen, j2]
          rfl
        · rw [if_neg hta] at j4
          cases j4
    cases hv : p.bValid with
    | false =>
      simp [hv] at hB
      subst hB
      refine ⟨w, by rw [← hw]; simp [State.operandsTaken, hv], hwop, hwA, ?_⟩
      split
      · rename_i h
        rw [if_pos h] at j5
        exact onB_congr j5 hwb1 hwb2
      · rename_i h
        rw [if_neg h] at j5
        exact j5
    | true =>
      simp [hv] at hB
      subst hB
      by_cases htb : takesB op = true
      · rw [if_pos htb] at j5
        obtain ⟨hd, hon⟩ := onB_take (onB_congr j5 hwb1 hwb2)
        obtain ⟨q1, -, -, q4, q5, q6, q7⟩ := w.takeB_spec p.b
        have : u.bReady = true := by simp [State.bReady, hst, j1, htb, ← hwb1, hd]
        refine ⟨w.takeB p.b, by rw [← hw]; simp [State.operandsTaken, hv, this], q1.trans hwop, ?_,
          by rw [if_pos htb]; exact hon⟩
        split
        · rename_i h
          rw [if_pos h] at hwA
          exact onA_congr hwA q5 q4 q6 q7
        · rename_i h
          rw [if_neg h] at hwA
          exact hwA
      · rw [if_neg htb] at j5
        cases j5
  obtain ⟨w', hw', hwop', hwA', hwB'⟩ := hw'
  have he : (u.edge p).perform = .next { u with work := w', stage := w'.stageAfterOperands } := by
    rw [State.edge_operands hr hst]
    simp only [Action.perform_settle, State.takeOperands, hw']
  refine ⟨_, he, rfl, State.edge_inv hinv he, k1, k2, k3, ?_⟩
  rcases w'.stageAfterOperands_cases with e | ⟨e, eo⟩ | ⟨e, eo⟩ | ⟨e, eo⟩ | ⟨e, eo⟩ <;> simp only [e]
  · exact ⟨hwop', j2, j3, hwA', hwB'⟩
  all_goals
    have hop : op = _ := hwop' ▸ eo
    subst hop
    simp [Work.stageAfterOperands, eo, takesA, takesB] at e hwA' hwB'
  · rcases hwA' with ⟨_, h2, _, h4⟩ | ⟨h, _⟩
    · exact ⟨h2, hwB', eo, j2, j3, (h4 rfl).1, (h4 rfl).2⟩
    · simp [h] at e
  · exact ⟨hwA', hwB', eo, j2, j3⟩
  · rcases hwA' with ⟨_, h2, h3, _⟩ | ⟨h, _⟩
    · exact ⟨h2, hwB', eo, j2, j3, h3 (by decide)⟩
    · simp [h] at e
  · rcases hwA' with ⟨_, h2, h3, _⟩ | ⟨h, _⟩
    · rcases hwB' with ⟨_, g2, g3⟩ | ⟨g, _⟩
      · exact ⟨h2, g2, eo, j2, j3, h3 (by decide), g3⟩
      · simp [g] at e
    · simp [h] at e

/-- Past the operands, none is to come. -/
theorem track_nil {ra rb : List Beat} (h : Track s t op a b r u ra rb) (hst : u.stage ≠ .operands) :
    ra = [] ∧ rb = [] := by
  obtain ⟨-, -, -, -, k4⟩ := h
  cases hs : u.stage <;> simp only [hs] at k4
  case operands => exact absurd hs hst
  all_goals exact ⟨k4.1, k4.2.1⟩

/-- With none to come, the machine is past the operands. -/
theorem track_not_operands (h : Track s t op a b r u [] []) : u.stage ≠ .operands := by
  intro hs
  obtain ⟨hinv, -, -, -, k4⟩ := h
  simp only [hs] at k4
  have h2 := hinv.2
  simp only [State.stageOk, hs] at h2
  obtain ⟨j1, -, -, hA, hB⟩ := k4
  have hA' : (!takesA op || u.work.aDone) = true := by
    cases ht : takesA op with
    | false => rfl
    | true =>
      rw [ht] at hA
      rcases hA with ⟨h, _⟩ | ⟨_, ⟨_, h, _⟩ | ⟨_, _, hl, _, h, _⟩⟩
      · simp [h]
      · exact absurd h.symm (inputBeats_ne_nil _)
      · exact absurd h.symm (valueInputs_ne_nil hl)
  have hB' : (!takesB op || u.work.bDone) = true := by
    cases ht : takesB op with
    | false => rfl
    | true =>
      rw [ht] at hB
      rcases hB with ⟨h, _⟩ | ⟨_, ⟨_, h, _⟩ | ⟨_, hl, _, h⟩⟩
      · simp [h]
      · exact absurd h.symm (inputBeats_ne_nil _)
      · exact absurd h.symm (valueInputs_ne_nil hl)
  have hstage := h2.1
  unfold Work.stageAfterOperands at hstage
  rw [j1, hA', hB'] at hstage
  rcases op_cases op with rfl | rfl | rfl | rfl <;> simp at hstage

/-- A machine that has not ended its command has an edge left. -/
theorem edgesLeft_pos (h : Track s t op a b r u [] []) (hi : u.stage ≠ .idle) : 0 < edgesLeft s a r u := by
  have hno := track_not_operands h
  have h2 := h.1.2
  cases hs : u.stage <;> simp only [State.stageOk, hs] at h2 <;> simp only [edgesLeft, hs] <;> try omega
  · exact absurd hs hi
  · exact absurd hs hno
  · exact List.length_pos_iff.mpr h2.2.2

/-! ### Runs -/

theorem run_succ {n : Nat} {u v : State} (h : step u = .next v) : run (n + 1) u = run n v := by
  simp only [run, h]

/-- Edges that carry the operands bring the machine to where none is to come. -/
theorem run_carry (hT : Target s t op a b r) (hb0 : s.backlogOk) (tail : List Pins) :
    ∀ (es : List Pins) (u : State) (ra rb : List Beat), u.edges = es ++ tail → Track s t op a b r u ra rb →
      (∀ p ∈ es, p.rst = false ∧ p.cmdValid = false) → (es.filter Pins.aValid).map Pins.a = ra →
      (es.filter Pins.bValid).map Pins.b = rb →
      ∀ n, ∃ u', run (es.length + n) u = run n u' ∧ u'.edges = tail ∧ Track s t op a b r u' [] [] := by
  intro es
  induction es with
  | nil =>
    intro u ra rb he h _ ha hb n
    simp at ha hb
    subst ha hb
    exact ⟨u, by simp, by simpa using he, h⟩
  | cons p es ih =>
    intro u ra rb he h hp ha hb n
    obtain ⟨p1, p2⟩ := hp p (by simp)
    have hA : (if p.aValid then [p.a] else []) ++ (es.filter Pins.aValid).map Pins.a = ra := by
      rw [← ha]
      cases hv : p.aValid <;> simp [hv]
    have hB : (if p.bValid then [p.b] else []) ++ (es.filter Pins.bValid).map Pins.b = rb := by
      rw [← hb]
      cases hv : p.bValid <;> simp [hv]
    have hstep := step_edge (ps := es ++ tail) (fun _ => h.2.2.1) he
    have hu : Track s t op a b r { u with edges := es ++ tail } ra rb := h
    obtain ⟨u', he', hed, htr⟩ : ∃ u', (({ u with edges := es ++ tail } : State).edge p).perform = .next u'
        ∧ u'.edges = es ++ tail
        ∧ Track s t op a b r u' ((es.filter Pins.aValid).map Pins.a) ((es.filter Pins.bValid).map Pins.b) := by
      by_cases hst : u.stage = .operands
      · exact operands_track hb0 hu hst p1 hA hB
      · obtain ⟨n1, n2⟩ := track_nil hu hst
        subst n1 n2
        obtain ⟨u', x1, x2, x3, -⟩ := moves hT hu hst p1 p2
        simp only [List.append_eq_nil_iff] at hA hB
        refine ⟨u', x1, x2, ?_⟩
        rw [hA.2, hB.2]
        exact x3
    obtain ⟨v, y1, y2, y3⟩ := ih u' _ _ hed htr (fun q hq => hp q (by simp [hq])) rfl rfl n
    refine ⟨v, ?_, y2, y3⟩
    rw [← y1, ← run_succ (hstep.trans he')]
    simp [Nat.add_right_comm]

/-- A host that takes whatever is offered brings the command to its end. -/
theorem run_collect (hT : Target s t op a b r) : ∀ (n : Nat) (u : State), edgesLeft s a r u ≤ n →
    u.edges = List.replicate n Pins.collect → Track s t op a b r u [] [] →
    ∃ u', run n u = .next u' ∧ u'.edges = [] ∧ u'.stage = .idle ∧ Track s t op a b r u' [] [] := by
  intro n
  induction n with
  | zero =>
    intro u hm he h
    have hi : u.stage = .idle := by
      by_contra hc
      have := edgesLeft_pos h hc
      omega
    exact ⟨u, rfl, he, hi, h⟩
  | succ n ih =>
    intro u hm he h
    have hstep := step_edge (ps := List.replicate n Pins.collect) (fun _ => h.2.2.1) he
    have hu : Track s t op a b r { u with edges := List.replicate n Pins.collect } [] [] := h
    obtain ⟨u', x1, x2, x3, -, x5⟩ := moves hT hu (track_not_operands hu) (p := Pins.collect) rfl rfl
    rw [run_succ (hstep.trans x1)]
    by_cases hi : u.stage = .idle
    · have hx : (({ u with edges := List.replicate n Pins.collect } : State).edge Pins.collect).perform
          = .next { u with edges := List.replicate n Pins.collect } := by
        rw [State.edge_idle (s := { u with edges := List.replicate n Pins.collect }) (p := Pins.collect) rfl hi]
        rfl
      obtain rfl : u' = { u with edges := List.replicate n Pins.collect } := by
        have := x1.symm.trans hx
        injection this
      exact ih _ (by simp [edgesLeft, hi]) rfl hu
    · have hlt := x5 hi rfl rfl
      have hmu : edgesLeft s a r { u with edges := List.replicate n Pins.collect } = edgesLeft s a r u := rfl
      exact ih u' (by omega) x2 x3

end

end Sys2Proof.Machine.PortLaw
end

