-- ==== Sys2Proof/Tests/Slice0.lean ====
section
/-! SUPPORT. Small tests, one step each, with the results of spec/95_test_vectors.md under T0 and T0s (R11) or worked
out by hand from the spec's encodings; ill-formed terms that the checks refuse; and, for every obligation with
hypotheses, a concrete case that meets them. -/

namespace Sys2Proof.Tests

open Sys2Proof
open Sys2Proof.Machine

/-! ### Helpers -/

/-- A machine after reset, holding this backlog. -/
def holding (c : Cfg) (bl : List Byte) : State := { State.resetWith c with bl := bl }

/-- A machine with a command in progress on the ports, and one quiet edge to come. -/
def busy (stage : Stage) (work : Work) (bl : List Byte) : State :=
  { holding Cfg.t0 bl with stage := stage, work := work, edges := [Pins.quiet] }

/-- What an outcome leaves of the backlog and the last response. -/
def left (o : Host.Outcome State Fault Refusal) : Option (List Byte × Option Response) :=
  match o with
  | .next t => some (t.bl, t.sent.getLast?)
  | .fault _ => none
  | .refused _ => none

/-- What an outcome leaves of the message being built and the cursor. -/
def emitted (o : Host.Outcome State Fault Refusal) : Option (Message × Nat) :=
  match o with
  | .next t => some (t.work.msg, t.work.cursor)
  | .fault _ => none
  | .refused _ => none

/-- What an outcome leaves of the bytes encoded so far and the position. -/
def encoded (o : Host.Outcome State Fault Refusal) : Option (List Byte × Nat) :=
  match o with
  | .next t => some (t.work.outBytes, t.work.pos)
  | .fault _ => none
  | .refused _ => none

/-- Why an outcome stops. -/
def refusal (o : Host.Outcome State Fault Refusal) : Option Refusal :=
  match o with
  | .next _ => none
  | .fault _ => none
  | .refused r => some r

/-- The frame of P1: PID, 1.0. -/
def frameP1 : List Byte := [0xF0, 0x20, 0xF2, 0x00, 0x00, 0x80, 0x3F, 0xF1]

def messageP1 : Message := [.code 0x20, .f32 0x3F800000]

/-! ### Ill-formed terms and configurations, refused -/

theorem test_wf_encode_undefined_code : Instr.wf Cfg.t0 (.encode [.code 0x20, .code 0x7E]) = false := by decide
theorem test_wf_trunc_no_tag : Instr.wf Cfg.t0 (.truncItem 0x20 [1]) = false := by decide
theorem test_wf_trunc_too_long : Instr.wf Cfg.t0 (.truncItem 0xF3 [1, 2, 3, 4]) = false := by decide
theorem test_wf_codeItem_undefined : Instr.wf Cfg.t0 (.codeItem 0x7E) = false := by decide
theorem test_wf_codeItem_tag : Instr.wf Cfg.t0 (.codeItem 0xF4) = false := by decide
theorem test_wf_unknownByte_defined : Instr.wf Cfg.t0 (.unknownByte 0xFF) = false := by decide
theorem test_wf_encCode_undefined : Instr.wf Cfg.t0 (.encCode 0x00) = false := by decide
theorem test_wf_accepts :
    (Instr.wf Cfg.t0 (.encode messageP1) && Instr.wf Cfg.t0 (.truncItem 0xF3 [1, 2, 3])
      && Instr.wf Cfg.t0 (.codeItem 0xF0) && Instr.wf Cfg.t0 (.unknownByte 0x7E)
      && Instr.wf Cfg.t0 (.encCode 0xF1)) = true := by decide

/-- R204: aliased delimiters, a distinguished byte outside DEF, a ceiling of 2, two names on one byte. -/
theorem test_cfg_refused :
    CfgData.valid { CfgData.t0 16 with bEnd := 0xF0 } = false
    ∧ CfgData.valid { CfgData.t0 16 with bNone := 0x00 } = false
    ∧ CfgData.valid (CfgData.t0 2) = false
    ∧ CfgData.valid { CfgData.t0 16 with names := [("SET", 0x10), ("GET", 0x10)] } = false := by decide
theorem test_cfg_smallest : CfgData.valid (CfgData.t0 3) = true := by decide
theorem test_boot_refuses : refusal (State.boot (CfgData.t0 2)) = some .schemaMismatch := by decide

/-! ### Decoding words written out from the spec's encodings -/

/-- R76: the four opcodes, with R75's records for operands; R75: a byte's kind and a code's upper bits are ignored. -/
theorem test_decode_commands :
    decode Cfg.t0 (.command 0b00 [⟨0b00, 0xF0⟩, ⟨0b11, 0xABCDEF20⟩] []) = .ok (.feed [0xF0, 0x20])
    ∧ decode Cfg.t0 (.command 0b01 [] []) = .ok .tryDecode
    ∧ decode Cfg.t0 (.command 0b10 [⟨0b00, 0xFFFFFF20⟩, ⟨0b01, 0x3F800000⟩] []) = .ok (.encode messageP1)
    ∧ decode Cfg.t0 (.command 0b11 [⟨0b10, 5⟩] [⟨0b11, 5⟩]) = .ok (.matchMsgs [.u32 5] [.i32 5]) := by decide

/-- R93, R94, R69: one byte in its three contexts. -/
theorem test_decode_contexts :
    decode Cfg.t0 (.startScan 0xF0) = .ok .startDelim
    ∧ decode Cfg.t0 (.endScan 0xF0) = .error .notEndDelimiter
    ∧ decode Cfg.t0 (.itemHead [0xF0, 0x20]) = .ok (.codeItem 0xF0)
    ∧ decode Cfg.t0 (.endScan 0xF1) = .ok .endDelim
    ∧ decode Cfg.t0 (.startScan 0xF1) = .error .notStartDelimiter := by decide

/-- R62, R65, R69, from V-D10, V-D11, V-D12, V-D7, V-D4. -/
theorem test_decode_items :
    decode Cfg.t0 (.itemHead [0xF2, 0x20, 0x20, 0x20, 0x20]) = .ok (.f32Item 0x20202020)
    ∧ decode Cfg.t0 (.itemHead [0xF3, 0xF0, 0xF2, 0xF3, 0xF4, 0x11]) = .ok (.u32Item 0xF4F3F2F0)
    ∧ decode Cfg.t0 (.itemHead [0xF4, 0x00, 0x00, 0x00, 0x80]) = .ok (.i32Item 0x80000000)
    ∧ decode Cfg.t0 (.itemHead [0xF2, 0x20, 0x20, 0x20]) = .ok (.truncItem 0xF2 [0x20, 0x20, 0x20])
    ∧ decode Cfg.t0 (.itemHead [0xFF]) = .ok (.codeItem 0xFF)
    ∧ decode Cfg.t0 (.itemHead [0x00]) = .ok (.unknownByte 0x00)
    ∧ decode Cfg.t0 (.itemHead []) = .error .spanUsedUp := by decide

/-- R75: the four kinds of record. -/
theorem test_decode_records :
    decode Cfg.t0 (.record ⟨0b00, 0x00000020⟩) = .ok (.encCode 0x20)
    ∧ decode Cfg.t0 (.record ⟨0b01, 0x7FC00001⟩) = .ok (.encF32 0x7FC00001)
    ∧ decode Cfg.t0 (.record ⟨0b10, 0x12345678⟩) = .ok (.encU32 0x12345678)
    ∧ decode Cfg.t0 (.record ⟨0b11, 0xFFFFFFFF⟩) = .ok (.encI32 0xFFFFFFFF) := by decide

/-- R81: the abbreviations. -/
theorem test_decode_abbreviations :
    decode Cfg.t0 (.poll [0xF0]) = .ok (.poll [0xF0]) ∧ decode Cfg.t0 .drain = .ok .drain := by decide

/-- R62, R75, R76: words the encoder writes. -/
theorem test_encode_words :
    encode Cfg.t0 (.f32Item 0x3F800000) = .itemHead [0xF2, 0x00, 0x00, 0x80, 0x3F]
    ∧ encode Cfg.t0 (.encCode 0x20) = .record ⟨0b00, 0x00000020⟩
    ∧ encode Cfg.t0 (.encU32 0x12345678) = .record ⟨0b10, 0x12345678⟩
    ∧ encode Cfg.t0 (.feed [0x55]) = .command 0b00 [⟨0b00, 0x00000055⟩] [] := by decide

/-- The opcode table's words: opcodes, bytes of the wire under T0, and records. -/
theorem test_decode_table_words :
    decodeTableWord 8 0 = some (.feed []) ∧ decodeTableWord 8 1 = some .tryDecode
    ∧ decodeTableWord 8 2 = some (.encode []) ∧ decodeTableWord 8 3 = some (.matchMsgs [] [])
    ∧ decodeTableWord 8 0xF0 = some .startDelim ∧ decodeTableWord 8 0xF1 = some .endDelim
    ∧ decodeTableWord 8 0xF2 = some (.f32Item 0) ∧ decodeTableWord 8 0x20 = some (.codeItem 0x20)
    ∧ decodeTableWord 8 0x7E = some (.unknownByte 0x7E)
    ∧ decodeTableWord 40 0x023F800000 = some (.encU32 0x3F800000) := by decide

/-- The first step after reset runs the word placed. -/
theorem test_step_runs_placed_words :
    left (step (State.reset.withFetchWord 8 2)) = some ([], some (.bytes [0xF0, 0xF1]))
    ∧ emitted (step (State.reset.withFetchWord 8 0xF3)) = some ([.u32 0], 5)
    ∧ encoded (step (State.reset.withFetchWord 40 0x0112345678)) = some ([0xF2, 0x78, 0x56, 0x34, 0x12], 1) := by
  decide

/-! ### Instructions, one step each -/

/-- V-F2. -/
theorem test_feed_appends :
    left (exec (.feed [0xF0, 0x20, 0xF2]) (holding Cfg.t0s [])) = some ([0xF0, 0x20, 0xF2], some .done) := by decide

/-- V-F4, V-F3: cleared at 16, kept at 15. -/
theorem test_feed_ceiling :
    left (exec (.feed [0x20]) (holding Cfg.t0s (List.replicate 15 0x20))) = some ([], some .done)
    ∧ left (exec (.feed [0x20]) (holding Cfg.t0s (List.replicate 14 0x20)))
      = some (List.replicate 15 0x20, some .done) := by decide

/-- V-T11. -/
theorem test_try_drops_prefix :
    left (exec .tryDecode (holding Cfg.t0 [0x55, 0xF1, 0x20, 0xF0, 0x20, 0xF1, 0xF0, 0x10]))
      = some ([0xF0, 0x10], some (.decoded (some [.code 0x20]))) := by decide

/-- V-T7, V-T6. -/
theorem test_try_empty_message_is_not_none :
    left (exec .tryDecode (holding Cfg.t0 [0xF0, 0xF1])) = some ([], some (.decoded (some [])))
    ∧ left (exec .tryDecode (holding Cfg.t0 [0xF0, 0x20, 0xF2]))
      = some ([0xF0, 0x20, 0xF2], some (.decoded none)) := by decide

/-- V-E6. -/
theorem test_encode_all_kinds :
    left (exec (.encode [.code 0x10, .code 0x20, .f32 0xC0200000, .u32 0x12345678, .i32 0x80000000])
        (holding Cfg.t0 [0x55]))
      = some ([0x55], some (.bytes [0xF0, 0x10, 0x20, 0xF2, 0x00, 0x00, 0x20, 0xC0, 0xF3, 0x78, 0x56, 0x34, 0x12,
          0xF4, 0x00, 0x00, 0x00, 0x80, 0xF1])) := by decide

/-- V-C1, R134. -/
theorem test_encode_collision_and_ill_typed :
    left (exec (.encode [.u32 0xF1]) (holding Cfg.t0 []))
      = some ([], some (.bytes [0xF0, 0xF3, 0xF1, 0x00, 0x00, 0x00, 0xF1]))
    ∧ refusal (exec (.encode [.code 0x7E]) (holding Cfg.t0 [])) = some .illTypedCode := by decide

/-- S4a, S4b, V-M3. -/
theorem test_match_kinds :
    left (exec (.matchMsgs messageP1 [.code 0x10, .f32 0x411E6666]) (holding Cfg.t0 [])) = some ([], some (.verdict true))
    ∧ left (exec (.matchMsgs messageP1 [.code 0x20, .u32 1]) (holding Cfg.t0 [])) = some ([], some (.verdict false))
    ∧ left (exec (.matchMsgs [.u32 5] [.i32 5]) (holding Cfg.t0 [])) = some ([], some (.verdict false)) := by decide

/-- V-M2, V-M8: lengths. -/
theorem test_match_lengths :
    left (exec (.matchMsgs [] [.code 0x20]) (holding Cfg.t0 [])) = some ([], some (.verdict false))
    ∧ left (exec (.matchMsgs (List.replicate 5 (.f32 0x3F000000)) (List.replicate 5 (.f32 0))) (holding Cfg.t0 []))
      = some ([], some (.verdict true)) := by decide

/-- V-T11's scans: START at index 3, END at index 5. -/
theorem test_delimiters_mark :
    (match exec .startDelim (busy .scanStart { Work.init with op := 1, cursor := 3 } []) with
      | .next t => (t.stage, t.work.startIdx, t.work.cursor)
      | _ => (.idle, 0, 0)) = (.scanEnd, 3, 4)
    ∧ (match exec .endDelim (busy .scanEnd { Work.init with op := 1, startIdx := 3, cursor := 5 } []) with
      | .next t => (t.stage, t.work.endIdx, t.work.cursor)
      | _ => (.idle, 0, 0)) = (.items, 5, 0) := by decide

/-- V-D1, V-D11, V-D12. -/
theorem test_numeric_items :
    emitted (exec (.f32Item 0x3F800000) (busy .items { Work.init with op := 1, msg := [.code 0x20], cursor := 1 } []))
      = some ([.code 0x20, .f32 0x3F800000], 6)
    ∧ emitted (exec (.u32Item 0xF4F3F2F0) (busy .items Work.init [])) = some ([.u32 0xF4F3F2F0], 5)
    ∧ emitted (exec (.i32Item 0x80000000) (busy .items Work.init [])) = some ([.i32 0x80000000], 5) := by decide

/-- V-D8: the item at index 1 of a span of 5 ends it. -/
theorem test_truncated_item :
    emitted (exec (.truncItem 0xF3 [0x01, 0x02, 0x03])
      (busy .items { Work.init with op := 1, msg := [.code 0x10], cursor := 1, startIdx := 0, endIdx := 6 }
        [0xF0, 0x10, 0xF3, 0x01, 0x02, 0x03, 0xF1])) = some ([.code 0x10, .code 0xFF], 5) := by decide

/-- V-D2. -/
theorem test_code_and_unknown :
    emitted (exec (.codeItem 0x10) (busy .items { Work.init with cursor := 2 } [])) = some ([.code 0x10], 3)
    ∧ emitted (exec (.unknownByte 0x7E) (busy .items { Work.init with cursor := 1 } []))
      = some ([.code 0xFF], 2) := by decide

/-- R132, R134, and the examples of R137 to R139. -/
theorem test_records :
    encoded (exec (.encCode 0x20) (busy .encoding Work.init [])) = some ([0x20], 1)
    ∧ refusal (exec (.encCode 0x7E) (busy .encoding Work.init [])) = some .illTypedCode
    ∧ encoded (exec (.encF32 0x7FC00001) (busy .encoding Work.init [])) = some ([0xF2, 0x01, 0x00, 0xC0, 0x7F], 1)
    ∧ encoded (exec (.encU32 0x12345678) (busy .encoding Work.init [])) = some ([0xF3, 0x78, 0x56, 0x34, 0x12], 1)
    ∧ encoded (exec (.encI32 0xFFFFFFFF) (busy .encoding Work.init [])) = some ([0xF4, 0xFF, 0xFF, 0xFF, 0xFF], 1) := by
  decide

/-- Step 5 and 6 of P1 in one. -/
theorem test_poll :
    left (exec (.poll [0x80, 0x3F, 0xF1]) (holding Cfg.t0 [0xF0, 0x20, 0xF2, 0x00, 0x00]))
      = some ([], some (.decoded (some messageP1))) := by decide

/-- Steps 2 to 4 of P2. -/
theorem test_drain :
    (match exec .drain (holding Cfg.t0 [0x55, 0xF1, 0x20, 0xF0, 0x20, 0xF3, 0x01, 0x00, 0x00, 0x00, 0xF1, 0xF0, 0xF4,
        0xFF, 0xFF, 0xFF, 0xFF, 0xF1, 0xF0, 0x10]) with
      | .next t => (t.bl, t.sent)
      | _ => ([], []))
      = ([0xF0, 0x10], [.decoded (some [.code 0x20, .u32 1]), .decoded (some [.i32 0xFFFFFFFF]), .decoded none]) := by
  decide

/-- R68: the signed reading. -/
theorem test_signed_reading :
    signedValue 0xFFFFFFFF = -1 ∧ signedValue 0x80000000 = -2147483648 ∧ signedValue 0x7FFFFFFF = 2147483647
    ∧ unsignedValue 0xFFFFFFFF = 4294967295 := by decide

/-- R14: little-endian reads, and none past the end. -/
theorem test_memRead : memRead [0x78, 0x56, 0x34, 0x12] 0 4 = some 0x12345678
    ∧ memRead [0x78, 0x56] 1 1 = some 0x56 ∧ memRead [0x78, 0x56] 1 4 = none := by decide

/-! ### The ports, one edge each -/

/-- R77: a command is accepted; R201: not on an edge that resets. -/
theorem test_port_accepts :
    (match step { holding Cfg.t0 [] with edges := [Pins.issue 2] } with
      | .next t => (t.stage, t.work.op)
      | _ => (.idle, 0)) = (.operands, 2)
    ∧ (match step { holding Cfg.t0 [1] with edges := [{ Pins.issue 2 with rst := true }] } with
      | .next t => (t.stage, t.bl)
      | _ => (.operands, [])) = (.idle, []) := by decide

/-- R33: a byte that brings the total to 16 sets the latch, and is not stored. -/
theorem test_port_latch :
    (match step { busy .operands Work.init (List.replicate 15 0x20) with
        cfg := Cfg.t0s, edges := [{ Pins.quiet with aValid := true, a := ⟨false, true, 0, 0x20⟩ }] } with
      | .next t => (t.stage, t.work.feedOver, t.work.aBuf)
      | _ => (.idle, false, [])) = (.append, true, []) := by decide

/-- notes/assumptions/8.md: a null beat after a value adds none, and the machine goes on (R170). -/
theorem test_port_stray_null :
    (match step { busy .operands { Work.init with op := 2, aBuf := [⟨0, 0x20⟩] } [] with
        edges := [{ Pins.quiet with aValid := true, a := ⟨true, true, 2, 7⟩ }] } with
      | .next t => t.work.aBuf
      | _ => []) = [⟨0, 0x20⟩] := by decide

/-- R78: the one beat of an empty sequence ends it; a beat after the last is not taken. -/
theorem test_port_ends :
    (match step { busy .operands { Work.init with op := 3 } [] with
        edges := [{ Pins.quiet with bValid := true, b := ⟨true, true, 2, 7⟩ }] } with
      | .next t => (t.stage, t.work.bDone)
      | _ => (.idle, false)) = (.operands, true)
    ∧ (match step { busy .operands { Work.init with op := 3, bDone := true } [] with
        edges := [{ Pins.quiet with bValid := true, b := ⟨false, false, 1, 7⟩ }] } with
      | .next t => t.work.bBuf
      | _ => [⟨0, 0⟩]) = [] := by decide

/-- R77, R78: the response beat, then the result beats. -/
theorem test_port_result :
    (match step { busy .respond { Work.init with op := 1, rspFlag := true, rBuf := [.null] } [] with
        edges := [{ Pins.quiet with rspReady := true }] } with
      | .next t => (t.stage, t.taken)
      | _ => (.idle, [])) = (.result, [.response 1 true])
    ∧ (match step { busy .result { Work.init with op := 1, rspFlag := true, rBuf := [.null] } [] with
        edges := [{ Pins.quiet with rReady := true }] } with
      | .next t => (t.stage, t.taken)
      | _ => (.respond, [])) = (.idle, [.result .null]) := by decide

/-! ### Scripts -/

/-- R80, G3 of spec/93_implementation_defined.md: literals. -/
theorem test_script_literals :
    parseLine Cfg.t0 "enc [F32(-2.5), F32(0.5), I32(-1), U32(0xF1), Code(0x7E)]"
      = some [.command 2 [⟨1, 0xC0200000⟩, ⟨1, 0x3F000000⟩, ⟨3, 0xFFFFFFFF⟩, ⟨2, 0xF1⟩, ⟨0, 0x7E⟩] []] := by decide

/-- R80, R81: lines; what is not of the syntax is none. -/
theorem test_script_lines :
    parseScript Cfg.t0 ["feed F0", "; a comment", "poll 20", "drain"]
      = some [.command 0 [⟨0, 0xF0⟩] [], .poll [0x20], .drain]
    ∧ parseLine Cfg.t0 "try 20" = none ∧ parseLine Cfg.t0 "enc [Code(FOO)]" = none := by decide

theorem test_response_text :
    responseText Cfg.t0 (.decoded (some messageP1)) = "Some[Code(PID), F32(0x3F800000)]".toList
    ∧ responseText Cfg.t0 (.bytes [0xF0, 0x0A]) = "F0 0A".toList := by decide

/-! ### Witnesses: the hypotheses of each obligation, met together -/

theorem witness_FeedAppendsOrClears :
    ∃ t, exec (.feed [0x20]) (holding Cfg.t0s []) = .next t ∧ t.bl = [0x20] := ⟨_, rfl, rfl⟩

/-- Clause by clause: a backlog without a start, one without an end, the empty span between the delimiters. -/
theorem witness_TryDecodeExtractsEarliestFrame :
    Cfg.t0.bStart ∉ (holding Cfg.t0 []).bl
    ∧ ((holding Cfg.t0 [0xF0]).bl = [] ++ Cfg.t0.bStart :: [] ∧ Cfg.t0.bStart ∉ ([] : List Byte)
      ∧ Cfg.t0.bEnd ∉ ([] : List Byte))
    ∧ ((holding Cfg.t0 [0xF1, 0xF0, 0xF1]).bl = [0xF1] ++ Cfg.t0.bStart :: ([] ++ Cfg.t0.bEnd :: [])
      ∧ Cfg.t0.bStart ∉ ([0xF1] : List Byte) ∧ Cfg.t0.bEnd ∉ ([] : List Byte)) := by decide

theorem wellTyped_messageP1 : wellTyped Cfg.t0 messageP1 := by
  unfold wellTyped
  decide

theorem witness_EncodeFramesItems : wellTyped (holding Cfg.t0 []).cfg messageP1 := wellTyped_messageP1

theorem witness_IllTypedCodeIsRefused :
    Element.code 0x7E ∈ [Element.code 0x7E] ∧ (holding Cfg.t0 []).cfg.isDef 0x7E = false := by decide

theorem witness_MatchIsEquivalence :
    exec (.matchMsgs [.code 0x20] [.code 0x10]) (holding Cfg.t0 [])
      = .next { holding Cfg.t0 [] with sent := (holding Cfg.t0 []).sent ++ [.verdict true] }
    ∧ exec (.matchMsgs [.code 0x10] [.code 0xFF]) (holding Cfg.t0 [])
      = .next { holding Cfg.t0 [] with sent := (holding Cfg.t0 []).sent ++ [.verdict true] } := ⟨rfl, rfl⟩

/-- Both ends of drain's clauses: a backlog that yields nothing, and one that yields a message. -/
theorem witness_AbbreviationsExpand :
    (∃ u, exec .tryDecode (holding Cfg.t0 []) = .next u ∧ u.sent = [.decoded none])
    ∧ (∃ u, exec .tryDecode (holding Cfg.t0 [0xF0, 0xF1]) = .next u ∧ u.sent = [.decoded (some [])]) :=
  ⟨⟨_, rfl, rfl⟩, ⟨_, rfl, rfl⟩⟩

/-- The least and the greatest payload. -/
theorem witness_NumericItemsEmitTheirWord :
    (0 : Word).toNat = (0 : Byte).toNat + (0 : Byte).toNat * 2 ^ 8 + (0 : Byte).toNat * 2 ^ 16 + (0 : Byte).toNat * 2 ^ 24
    ∧ (0xFFFFFFFF : Word).toNat
      = (0xFF : Byte).toNat + (0xFF : Byte).toNat * 2 ^ 8 + (0xFF : Byte).toNat * 2 ^ 16 + (0xFF : Byte).toNat * 2 ^ 24 := by
  decide

/-- No byte and three bytes after the tag. -/
theorem witness_TruncatedItemEndsTheSpan :
    Cfg.t0.isTag 0xF2 = true ∧ ([] : List Byte).length < 4 ∧ ([1, 2, 3] : List Byte).length < 4 := by decide

theorem witness_HeadBytesEmitOneCode :
    (Cfg.t0.isDef 0xF0 = true ∧ Cfg.t0.isTag 0xF0 = false) ∧ Cfg.t0.isDef 0x7E = false := by decide

theorem witness_RecordsEncodeTheirItem : (holding Cfg.t0 []).cfg.isDef 0xFF = true := by decide

theorem witness_StepRunsTheHostsAct :
    (({ holding Cfg.t0 [] with script := [.command 0 [⟨0, 0x20⟩] []] } : State).stage = .idle
      ∧ ({ holding Cfg.t0 [] with script := [.command 0 [⟨0, 0x20⟩] []] } : State).script
        = .command 0 [⟨0, 0x20⟩] [] :: []
      ∧ decode Cfg.t0 (.command 0 [⟨0, 0x20⟩] []) = .ok (.feed [0x20]))
    ∧ ({ holding Cfg.t0 [] with script := [.poll []] } : State).script = .poll [] :: []
    ∧ ({ holding Cfg.t0 [] with script := [.drain] } : State).script = .drain :: []
    ∧ ({ holding Cfg.t0 [] with script := [.reset] } : State).script = .reset :: [] := by decide

/-- Clause by clause: both scans at their delimiter, past another byte and used up; an item; a record. -/
theorem witness_StepRunsThePortsInstruction :
    (busy .scanStart Work.init [0xF0]).edges = Pins.quiet :: [] ∧ Pins.quiet.rst = false
    ∧ ((busy .scanStart Work.init [0xF0]).bl[0]? = some 0xF0 ∧ decode Cfg.t0 (.startScan 0xF0) = .ok .startDelim)
    ∧ ((busy .scanEnd Work.init [0xF1]).bl[0]? = some 0xF1 ∧ decode Cfg.t0 (.endScan 0xF1) = .ok .endDelim)
    ∧ ((busy .scanStart Work.init [0xF1]).bl[0]? = some 0xF1 ∧ (0xF1 : Byte) ≠ Cfg.t0.bStart)
    ∧ ((busy .scanEnd Work.init [0xF0]).bl[0]? = some 0xF0 ∧ (0xF0 : Byte) ≠ Cfg.t0.bEnd)
    ∧ ((busy .scanStart Work.init []).stage = .scanStart ∧ (busy .scanStart Work.init []).bl[0]? = none)
    ∧ (decode Cfg.t0 (.itemHead
        ((busy .items { Work.init with endIdx := 2 } [0xF0, 0x20, 0xF1]).span.drop 0)) = .ok (.codeItem 0x20))
    ∧ ((busy .encoding { Work.init with aBuf := [⟨0, 0x20⟩] } []).work.aBuf[0]? = some ⟨0, 0x20⟩
      ∧ decode Cfg.t0 (.record ⟨0, 0x20⟩) = .ok (.encCode 0x20)) := by decide

theorem witness_PlacedWordIsRun : decode (holding Cfg.t0 []).cfg (.record ⟨1, 0⟩) = .ok (.encF32 0) := rfl

theorem witness_DecodeEncodeAgree : Instr.wf Cfg.t0 (.truncItem 0xF2 [1, 2, 3]) = true := by decide

/-- Each row of R69: four bytes after a tag, three, a code, an unknown byte. -/
theorem witness_ItemHeadTable :
    (0xF2 : Byte) = Cfg.t0.bFloat ∧ (0xF3 : Byte) = Cfg.t0.bUint ∧ (0xF4 : Byte) = Cfg.t0.bInt
    ∧ 4 ≤ ([1, 2, 3, 4] : List Byte).length ∧ ([1, 2, 3] : List Byte).length < 4
    ∧ (Cfg.t0.isDef 0xFF = true ∧ ¬((0xFF : Byte) = Cfg.t0.bFloat ∨ (0xFF : Byte) = Cfg.t0.bUint
      ∨ (0xFF : Byte) = Cfg.t0.bInt))
    ∧ Cfg.t0.isDef 0x00 = false := by decide

theorem witness_SequencesAreBeats :
    [byteRecord 1] ≠ [] ∧ [byteRecord 1][0]? = some (byteRecord 1) := by decide

theorem witness_PayloadIsLittleEndian : Cfg.t0.isTag 0xF4 = true := by decide

theorem witness_CodeTableLookup : Cfg.t0.isDef 0x20 = true ∧ Cfg.t0.isDef 0x21 = false := by decide

theorem witness_DecodeSpanItemByItem :
    (0x04030201 : Word).toNat
      = (1 : Byte).toNat + (2 : Byte).toNat * 2 ^ 8 + (3 : Byte).toNat * 2 ^ 16 + (4 : Byte).toNat * 2 ^ 24
    ∧ (Cfg.t0.isTag (Cfg.t0.codeOf 0xF3) = true ∧ ([1, 2, 3] : List Byte).length < 4)
    ∧ Cfg.t0.isTag (Cfg.t0.codeOf 0x7E) = false := by decide

/-- Both directions of R136's two conditions: P1's message meets them, V-C1's and V-C4's do not. -/
theorem witness_RoundTripExactly :
    wellTyped (holding Cfg.t0 []).cfg messageP1 ∧ (holding Cfg.t0 []).bl = []
    ∧ (encodeFrame (holding Cfg.t0 []).cfg messageP1).length < (holding Cfg.t0 []).cfg.ceiling
    ∧ Cfg.t0.bEnd ∈ encodeItems Cfg.t0 [.u32 0xF1] ∧ Cfg.t0.isTag 0xF2 = true :=
  ⟨wellTyped_messageP1, rfl, by decide, by decide, by decide⟩

/-- R140, both ways: the spans of the laws' instances. -/
theorem witness_ReencodingExactly :
    (parse Cfg.t0 [0x20, 0xF2, 0x00, 0x00, 0x80, 0x3F]).all (fun i => !degrades i) = true
    ∧ (parse Cfg.t0 [0x20, 0x7E, 0x10]).any degrades = true
    ∧ (parse Cfg.t0 [0x10, 0xF3, 0x01, 0x02, 0x03]).any degrades = true
    ∧ Cfg.t0.isDef 0x7E = false ∧ (Cfg.t0.isTag 0xF3 = true ∧ ([1, 2, 3] : List Byte).length < 4) := by decide

theorem witness_EncodedLength : ∃ t, exec (.encode messageP1) (holding Cfg.t0 []) = .next t := ⟨_, rfl⟩

theorem witness_WireSafeRoundTrips :
    wellTyped (holding Cfg.t0 []).cfg messageP1 ∧ wireSafe (holding Cfg.t0 []).cfg messageP1
    ∧ (encodeFrame (holding Cfg.t0 []).cfg messageP1).length < (holding Cfg.t0 []).cfg.ceiling := by
  refine ⟨wellTyped_messageP1, ?_, by decide⟩
  intro el hel
  simp only [messageP1, List.mem_cons, List.not_mem_nil, or_false] at hel
  rcases hel with rfl | rfl <;> decide

/-- P1's three chunks, and the longest total that is kept. -/
theorem witness_ChunkingLaw :
    (holding Cfg.t0 []).bl.length + [[0xF0, 0x20, 0xF2], [0x00, 0x00], ([0x80, 0x3F, 0xF1] : List Byte)].flatten.length
      < (holding Cfg.t0 []).cfg.ceiling
    ∧ (holding Cfg.t0s []).bl.length + [List.replicate 8 (0x20 : Byte), List.replicate 7 0x20].flatten.length
      < (holding Cfg.t0s []).cfg.ceiling := by decide

theorem witness_NoneLeavesTheBacklog :
    ∃ t, exec .tryDecode (holding Cfg.t0 [0xF0]) = .next t ∧ t.sent = [.decoded none] := ⟨_, rfl, rfl⟩

/-- A total of 15 under a ceiling of 16; a frame found. -/
theorem witness_BacklogPositions :
    ((holding Cfg.t0s (List.replicate 14 0x20)).bl.length + ([0x20] : List Byte).length < Cfg.t0s.ceiling
      ∧ ∃ t, exec (.feed [0x20]) (holding Cfg.t0s (List.replicate 14 0x20)) = .next t)
    ∧ ∃ t, exec .tryDecode (holding Cfg.t0 [0xF0, 0xF1]) = .next t ∧ t.sent = [.decoded (some [])] :=
  ⟨⟨by decide, _, rfl⟩, _, rfl, rfl⟩

theorem witness_MultiFrameLaw :
    wellTyped Cfg.t0 messageP1 ∧ noEndByte Cfg.t0 messageP1 ∧ noTagCode Cfg.t0 messageP1
    ∧ wellTyped Cfg.t0 [] ∧ noEndByte Cfg.t0 [] ∧ noTagCode Cfg.t0 []
    ∧ (encodeFrame Cfg.t0 messageP1).length + (encodeFrame Cfg.t0 []).length < Cfg.t0.ceiling := by
  refine ⟨wellTyped_messageP1, ?_, ?_, ?_, ?_, ?_, by decide⟩
  · unfold noEndByte
    decide
  · intro b hb
    simp only [messageP1, List.mem_cons, Element.code.injEq, reduceCtorEq, List.not_mem_nil, or_false] at hb
    subst hb
    decide
  · simp [wellTyped]
  · simp [noEndByte, encodeItems]
  · simp [noTagCode]

/-- Equality at the ceiling, and a chunk past it from an empty backlog. -/
theorem witness_OverflowLaw :
    (holding Cfg.t0s []).cfg.ceiling ≤ (holding Cfg.t0s (List.replicate 15 0x20)).bl.length + ([0x20] : List Byte).length
    ∧ (holding Cfg.t0s []).cfg.ceiling ≤ (holding Cfg.t0s []).bl.length + (List.replicate 18 (0x20 : Byte)).length := by
  decide

/-- The longest backlog there can be. -/
theorem witness_MessageFitsTheCeiling :
    (holding Cfg.t0s (0xF0 :: List.replicate 13 0x20 ++ [0xF1])).backlogOk
    ∧ ∃ t m, exec .tryDecode (holding Cfg.t0s (0xF0 :: List.replicate 13 0x20 ++ [0xF1])) = .next t
      ∧ t.sent = [.decoded (some m)] ∧ m.length = 13 := by
  refine ⟨?_, _, _, rfl, rfl, rfl⟩
  unfold State.backlogOk
  decide

theorem witness_BacklogChangesInThreeWays :
    (∃ t, exec (.feed []) (holding Cfg.t0 []) = .next t) ∧ (∃ t, exec (.poll []) (holding Cfg.t0 []) = .next t)
    ∧ (∃ t, exec .drain (holding Cfg.t0 []) = .next t) ∧ (∃ t, exec (.encF32 0) (holding Cfg.t0 []) = .next t) :=
  ⟨⟨_, rfl⟩, ⟨_, rfl⟩, ⟨_, rfl⟩, ⟨_, rfl⟩⟩

theorem witness_ResponsesDependOnTheBacklogAlone :
    (holding Cfg.t0 [0xF0]).cfg = (busy .items Work.init [0xF0]).cfg
    ∧ (holding Cfg.t0 [0xF0]).bl = (busy .items Work.init [0xF0]).bl
    ∧ ∃ t, exec .tryDecode (holding Cfg.t0 [0xF0]) = .next t := ⟨rfl, rfl, _, rfl⟩

theorem witness_EncodeAndMatchArePure :
    (holding Cfg.t0 [0xF0]).cfg = (holding Cfg.t0 []).cfg
    ∧ (∃ t, exec (.encode messageP1) (holding Cfg.t0 [0xF0]) = .next t)
    ∧ (∃ t, exec (.matchMsgs [] []) (holding Cfg.t0 [0xF0]) = .next t) := ⟨rfl, ⟨_, rfl⟩, ⟨_, rfl⟩⟩

theorem witness_InstructionFrames :
    (∃ t, exec (.feed []) (holding Cfg.t0 []) = .next t) ∧ (∃ t, exec .tryDecode (holding Cfg.t0 []) = .next t)
    ∧ (∃ t, exec (.encode messageP1) (holding Cfg.t0 []) = .next t)
    ∧ (∃ t, exec (.matchMsgs [] []) (holding Cfg.t0 []) = .next t)
    ∧ (∃ t, exec (.i32Item 1) (holding Cfg.t0 []) = .next t) ∧ (∃ t, exec (.encCode 0x20) (holding Cfg.t0 []) = .next t)
    ∧ (∃ t, exec .startDelim (holding Cfg.t0 []) = .next t) ∧ (∃ t, exec .endDelim (holding Cfg.t0 []) = .next t) :=
  ⟨⟨_, rfl⟩, ⟨_, rfl⟩, ⟨_, rfl⟩, ⟨_, rfl⟩, ⟨_, rfl⟩, ⟨_, rfl⟩, ⟨_, rfl⟩, ⟨_, rfl⟩⟩

theorem witness_ConfigurationNeverChanges : ∃ t, step (busy .append Work.init []) = .next t := ⟨_, rfl⟩

theorem witness_ResetAbandonsTheCommand :
    ({ busy .items Work.init [0xF0] with edges := [{ Pins.quiet with rst := true }] } : State).edges
      = { Pins.quiet with rst := true } :: []
    ∧ ({ Pins.quiet with rst := true } : Pins).rst = true
    ∧ ((busy .items Work.init [0xF0]).stage = .idle → (busy .items Work.init [0xF0]).script = []) :=
  ⟨rfl, rfl, fun _ => rfl⟩

/-- Each ground for refusing, at its boundary: a ceiling of 2, two equal bytes, one byte outside DEF; and T0. -/
theorem witness_InvalidConfigurationIsRefused :
    (CfgData.t0 2).ceiling < 3
    ∧ ¬[(0xF0 : Byte), 0xF0, 0xF2, 0xF3, 0xF4, 0xFF].Nodup
    ∧ (∃ b ∈ [(0xF0 : Byte), 0xF1, 0xF2, 0xF3, 0xF4, 0x00], (CfgData.t0 16).isDef b = false)
    ∧ Cfg.t0.toCfgData = CfgData.t0 2000 :=
  ⟨by decide, by decide, by decide, rfl⟩

/-- An idle machine and one in the middle of a span, each with a next step. -/
theorem witness_EveryStepKeepsTheInvariant :
    (holding Cfg.t0 frameP1).Inv ∧ ∃ t, step (holding Cfg.t0 frameP1) = .next t := by
  refine ⟨⟨?_, rfl⟩, _, rfl⟩
  unfold State.backlogOk
  decide

theorem witness_EveryStepKeepsTheInvariant_inside :
    (busy .items { Work.init with op := 1, endIdx := 7, cursor := 1, msg := [.code 0x20] } frameP1).Inv := by
  refine ⟨?_, ?_⟩
  · unfold State.backlogOk
    decide
  · show _ ∧ _
    decide

theorem witness_LengthCounterFits :
    (holding Cfg.t0 []).Inv ∧ ∃ t, step { holding Cfg.t0 [] with edges := [Pins.issue 0] } = .next t := by
  refine ⟨⟨?_, rfl⟩, _, rfl⟩
  unfold State.backlogOk
  decide

/-- Each of the stops. -/
theorem witness_OnlyTwoRefusals :
    step { holding Cfg.t0 [] with script := [.command 2 [⟨0, 0x7E⟩] []] } = .refused .illTypedCode
    ∧ step (busy .encoding { Work.init with op := 2, aBuf := [⟨0, 0x7E⟩] } []) = .refused .illTypedCode
    ∧ State.boot (CfgData.t0 2) = .refused .schemaMismatch :=
  ⟨rfl, rfl, rfl⟩

/-- FEED one byte short of the ceiling, at it, and past it, with a value and with a stray null beat; the empty sequence
on A and on B, and a stray null beat on B; and MATCH with stream A ended, a beat offered on both streams. -/
theorem witness_OperandStreamsTransferBeats :
    (∃ s : State, s.edges = { Pins.quiet with aValid := true, a := ⟨false, false, 0, 1⟩ } :: []
      ∧ s.stage = .operands ∧ (s.outputs false).aReady = true ∧ s.work.op = 0 ∧ s.work.feedOver = false
      ∧ s.blen + s.work.feedCount + 1 = s.cfg.ceiling - 1)
    ∧ (∃ s : State, s.edges = { Pins.quiet with aValid := true, a := ⟨false, true, 0, 1⟩ } :: []
      ∧ s.stage = .operands ∧ (s.outputs false).aReady = true ∧ s.work.op = 0 ∧ s.work.feedOver = false
      ∧ s.blen + s.work.feedCount + 1 = s.cfg.ceiling)
    ∧ (∃ s : State, s.edges = { Pins.quiet with aValid := true, a := ⟨true, true, 0, 1⟩ } :: []
      ∧ s.stage = .operands ∧ (s.outputs false).aReady = true ∧ s.work.op = 0 ∧ s.work.feedOver = true)
    ∧ (∃ s : State, s.edges = { Pins.quiet with aValid := true, a := ⟨true, true, 0, 1⟩ } :: []
      ∧ s.stage = .operands ∧ (s.outputs false).aReady = true ∧ s.work.aBuf = [] ∧ s.work.feedCount = 0)
    ∧ (∃ s : State, s.edges = { Pins.quiet with
          aValid := true, a := ⟨false, true, 1, 7⟩, bValid := true, b := ⟨false, true, 1, 7⟩ } :: []
      ∧ s.stage = .operands ∧ (s.outputs false).aReady = false ∧ (s.outputs false).bReady = true ∧ s.work.op = 3)
    ∧ (∃ s : State, s.edges = { Pins.quiet with aValid := true, a := ⟨false, false, 0, 1⟩ } :: []
      ∧ s.stage = .operands ∧ (s.outputs false).aReady = true ∧ s.work.op = 0 ∧ s.work.feedOver = true)
    ∧ (∃ s : State, s.edges = { Pins.quiet with bValid := true, b := ⟨true, true, 0, 1⟩ } :: []
      ∧ s.stage = .operands ∧ (s.outputs false).bReady = true ∧ s.work.bBuf = [])
    ∧ (∃ s : State, s.edges = { Pins.quiet with bValid := true, b := ⟨true, false, 0, 1⟩ } :: []
      ∧ s.stage = .operands ∧ (s.outputs false).bReady = true ∧ s.work.bBuf = [⟨1, 7⟩]) := by
  refine ⟨⟨{ busy .operands { Work.init with feedCount := 14 } [] with cfg := Cfg.t0s, edges := _ },
      rfl, rfl, rfl, rfl, rfl, rfl⟩,
    ⟨{ busy .operands { Work.init with feedCount := 15 } [] with cfg := Cfg.t0s, edges := _ },
      rfl, rfl, rfl, rfl, rfl, rfl⟩,
    ⟨{ busy .operands { Work.init with feedOver := true } [] with edges := _ }, rfl, rfl, rfl, rfl, rfl⟩,
    ⟨{ busy .operands Work.init [] with edges := _ }, rfl, rfl, rfl, rfl, rfl⟩,
    ⟨{ busy .operands { Work.init with op := 3, aDone := true } [] with edges := _ }, rfl, rfl, rfl, rfl, rfl⟩,
    ⟨{ busy .operands { Work.init with feedOver := true } [] with edges := _ }, rfl, rfl, rfl, rfl, rfl⟩,
    ⟨{ busy .operands { Work.init with op := 3 } [] with edges := _ }, rfl, rfl, rfl, rfl⟩,
    ⟨{ busy .operands { Work.init with op := 3, bBuf := [⟨1, 7⟩] } [] with edges := _ }, rfl, rfl, rfl, rfl⟩⟩

/-- A response beat offered and taken; a command offered to an idle machine. -/
theorem witness_HandshakesTransferBeats :
    (∃ s : State, s.edges = Pins.collect :: [] ∧ Pins.collect.rst = false ∧ s.script = [] ∧ s.Inv
      ∧ (∃ t, step s = .next t) ∧ (s.outputs false).rsp = some (0, true))
    ∧ (({ holding Cfg.t0 [] with edges := [Pins.issue 3] } : State).outputs false).cmdReady = true := by
  refine ⟨⟨{ busy .respond { Work.init with rspFlag := true } [] with edges := [Pins.collect] }, rfl, rfl, rfl,
    ⟨?_, ?_⟩, ⟨_, rfl⟩, rfl⟩, rfl⟩
  · unfold State.backlogOk
    decide
  · show _ ∧ _
    decide

/-- MATCH with its operands on interleaved edges, one of them quiet. -/
theorem witness_PortLevelRefinesTransactionLevel :
    (holding Cfg.t0 []).stage = .idle ∧ (holding Cfg.t0 []).work = Work.init ∧ (holding Cfg.t0 []).script = []
    ∧ (holding Cfg.t0 []).backlogOk
    ∧ carry 3 [⟨1, 7⟩] [] [{ Pins.quiet with bValid := true, b := ⟨true, true, 0, 0⟩ }, Pins.quiet,
        { Pins.quiet with aValid := true, a := ⟨false, true, 1, 7⟩ }]
    ∧ ∃ t, exec (decodeCommand 3 [⟨1, 7⟩] []) (holding Cfg.t0 []) = .next t
      ∧ t.sent = (holding Cfg.t0 []).sent ++ [.verdict false] := by
  refine ⟨rfl, rfl, rfl, ?_, ?_, _, rfl, rfl⟩
  · unfold State.backlogOk
    decide
  · unfold carry
    decide

theorem witness_BacklogChangesWithTheResponse :
    (busy .append Work.init []).script = [] ∧ ∃ t, step (busy .append Work.init []) = .next t := ⟨rfl, _, rfl⟩

/-- At both sides of the latch's boundary: 15 before, and one byte or none. -/
theorem witness_FeedLatchSetsAtTheCeiling :
    Work.init.feedOver = false ∧ Work.init.feedCount = Work.init.aBuf.length ∧ 15 + Work.init.aBuf.length < 16
    ∧ 16 ≤ 15 + Work.init.aBuf.length + ([⟨0, 0x20⟩] : List Record).length
    ∧ 15 + Work.init.aBuf.length + ([] : List Record).length < 16 := by decide

end Sys2Proof.Tests
end

section
/-! PROOFS of O52 and O17. O52: the edge that accepts the command puts the machine on the track of Laws/Port.lean;
`run_carry` and `run_collect` keep it there, for as many edges as `edgesBound` gives, to the end of the command. -/

namespace Sys2Proof.Machine.PortLaw

section
variable {s t : State} {op : BitVec 2} {a b : List Record} {r : Response} {u : State}

/-! ### The start of a command -/

theorem inputBeats_of_ne_nil {xs : List Record} (h : xs ≠ []) : inputBeats xs = valueInputs xs := if_neg h

/-- Before its first beat, all of stream A is to come. -/
theorem onA_init (s : State) (op : BitVec 2) (a : List Record) :
    OnA s op a { Work.init with op := op } (inputBeats a) := by
  by_cases ha : a = []
  · subst ha
    exact .inr ⟨rfl, .inl ⟨rfl, rfl, rfl, rfl, rfl⟩⟩
  · exact .inr ⟨rfl, .inr ⟨[], a, ha, rfl, inputBeats_of_ne_nil ha, fun _ => rfl,
      fun _ => ⟨fun _ => ⟨rfl, rfl⟩, fun h => nomatch h⟩⟩⟩

/-- Before its first beat, all of stream B is to come. -/
theorem onB_init (op : BitVec 2) (b : List Record) : OnB b { Work.init with op := op } (inputBeats b) := by
  by_cases hb : b = []
  · subst hb
    exact .inr ⟨rfl, .inl ⟨rfl, rfl, rfl⟩⟩
  · exact .inr ⟨rfl, .inr ⟨b, hb, rfl, inputBeats_of_ne_nil hb⟩⟩

/-- The edge that issues a command to an idle machine accepts it (R77). -/
theorem edge_issue (hidle : s.stage = .idle) : (s.edge (Pins.issue op)).perform = .next (s.accept op) := by
  rw [State.edge_idle (p := Pins.issue op) rfl hidle]
  rfl

/-- The step that issues a command to an idle machine, whatever edges `ps` follow. -/
theorem step_issue (hidle : s.stage = .idle) (hscript : s.script = []) (ps : List Pins) :
    step { s with edges := Pins.issue op :: ps } = .next (({ s with edges := ps } : State).accept op) :=
  (step_edge (s := { s with edges := Pins.issue op :: ps }) (fun _ => hscript) rfl).trans (edge_issue hidle)

/-- A machine that has just accepted the command has every beat of its operands to come (R77, R78). -/
theorem accept_track (hidle : s.stage = .idle) (hwork : s.work = Work.init) (hscript : s.script = [])
    (hbl : s.backlogOk) (ps : List Pins) :
    Track s t op a b r (({ s with edges := ps } : State).accept op) (if takesA op then inputBeats a else [])
      (if takesB op then inputBeats b else []) := by
  have hinv : ({ s with edges := ps } : State).Inv := ⟨hbl, by simp only [State.stageOk, hidle, hwork]⟩
  refine ⟨State.edge_inv hinv (edge_issue hidle), rfl, hscript, rfl, ?_⟩
  by_cases h1 : op = 1
  · subst h1
    exact ⟨rfl, rfl, rfl, rfl, rfl⟩
  · simp only [State.accept, if_neg h1]
    refine ⟨trivial, trivial, trivial, ?_, ?_⟩
    · cases takesA op
      · rfl
      · exact onA_init s op a
    · cases takesB op
      · rfl
      · exact onB_init op b

/-! ### The end of a command -/

/-- Edges enough for the host to take what is offered, wherever the machine has got to. -/
def edgesBound (s : State) (a : List Record) (r : Response) : Nat :=
  r.stream.length + 4 + 3 * s.bl.length + a.length + s.taken.length

theorem span_length_le (u : State) : u.span.length ≤ u.bl.length := by
  simp only [State.span, slice, List.length_drop, List.length_take]
  omega

/-- The bound holds at every stage past the operands. -/
theorem edgesLeft_le_edgesBound (h : Track s t op a b r u [] []) : edgesLeft s a r u ≤ edgesBound s a r := by
  obtain ⟨-, -, -, -, hstage⟩ := h
  cases hs : u.stage <;> simp only [hs] at hstage <;> simp only [edgesLeft, edgesBound, hs]
  case respond =>
    obtain ⟨-, -, -, -, -, -, hbuf⟩ := hstage
    rw [hbuf]
    omega
  case result =>
    obtain ⟨-, -, -, -, htaken⟩ := hstage
    have hlen := congrArg List.length htaken
    simp only [Response.taken, List.length_append, List.length_map, List.length_cons] at hlen
    omega
  case items =>
    obtain ⟨-, -, -, hbl, -⟩ := hstage
    have hspan := span_length_le u
    rw [hbl] at hspan
    omega
  all_goals omega

/-- A machine on track that is idle again has given the host the response and holds the backlog of the command taken
whole; nothing else has changed but the edges used up. -/
theorem eq_of_track_idle (hinit : s.stage = .idle) (hwork : s.work = Work.init) (hscript : s.script = [])
    (h : Track s t op a b r u [] []) (hidle : u.stage = .idle) (hedges : u.edges = []) :
    u = { s with bl := t.bl, edges := [], taken := s.taken ++ r.taken op } := by
  obtain ⟨⟨-, hok⟩, hcfg, hus, hsent, hstage⟩ := h
  simp only [State.stageOk, hidle] at hok hstage
  obtain ⟨-, -, hbl, htaken⟩ := hstage
  cases u
  simp_all

/-! ### The whole command -/

/-- Accept, carry, collect: the run of a command on the ports. -/
theorem run_command (hT : Target s t op a b r) (hidle : s.stage = .idle) (hwork : s.work = Work.init)
    (hscript : s.script = []) (hbl : s.backlogOk) {edges : List Pins} (hcarry : carry op a b edges) :
    run (1 + edges.length + edgesBound s a r)
        { s with edges := Pins.issue op :: edges ++ List.replicate (edgesBound s a r) Pins.collect }
      = .next { s with bl := t.bl, edges := [], taken := s.taken ++ r.taken op } := by
  obtain ⟨hquiet, hA, hB⟩ := hcarry
  obtain ⟨u, hcarried, hu, hutrack⟩ :=
    run_carry hT hbl (List.replicate (edgesBound s a r) Pins.collect) edges _ _ _ rfl
      (accept_track hidle hwork hscript hbl _) hquiet hA hB (edgesBound s a r)
  obtain ⟨v, hcollected, hv, hvidle, hvtrack⟩ :=
    run_collect hT _ u (edgesLeft_le_edgesBound hutrack) hu hutrack
  rw [Nat.add_assoc, Nat.add_comm 1, List.cons_append, run_succ (step_issue hidle hscript _), hcarried, hcollected,
    eq_of_track_idle hidle hwork hscript hvtrack hvidle hv]

end

/-- Settles O52: a simulation of the command taken whole, its edges the one that issues it, those that carry the
operands, and `edgesBound` edges on which the host takes what is offered. -/
theorem portLevelRefinesTransactionLevel : Obligations.PortLevelRefinesTransactionLevel := by
  intro s t op a b r edges hidle hwork hscript hbl hcarry hexec hsent
  exact ⟨edgesBound s a r,
    run_command (target_of_exec s t op a b r hexec hsent) hidle hwork hscript hbl hcarry⟩

end Sys2Proof.Machine.PortLaw

namespace Sys2Proof

/-- Settles O17: a command and a record decode without the code table, a delimiter by its one byte, an item by T0's
table at its head, so the six items are left to `decide`. -/
theorem wordsDecodeToTheirInstruction : Obligations.WordsDecodeToTheirInstruction := by
  unfold Obligations.WordsDecodeToTheirInstruction
  refine ⟨rfl, rfl, rfl, rfl, rfl, rfl, ?f32, ?u32, ?i32, ?trunc, ?code, ?unknown, rfl, rfl, rfl, rfl⟩
  all_goals decide

end Sys2Proof
end

section
/-! PROOFS of the statements about the state (10_state.md): what an instruction and a step keep, the phases of the
backlog, FEED's latch, the code table and the state after reset. -/

namespace Sys2Proof.Machine

/-! ### Instructions that check their operand -/

section
variable {s t : State}

/-- ENCODE completes exactly on well-typed elements, and answers the frame (R131, R134). -/
theorem exec_encode_eq_next_iff {els : Message} :
    exec (.encode els) s = .next t
      ↔ els.all (Element.wellTyped s.cfg) = true ∧ s.answer (.bytes (encodeFrame s.cfg els)) = t := by
  simp only [exec, execEncode]
  split <;> simp_all

/-- ENC.CODE completes exactly on a byte of DEF, and appends it (R132, R134). -/
theorem exec_encCode_eq_next_iff {b : Byte} :
    exec (.encCode b) s = .next t ↔ s.cfg.isDef b = true ∧ s.append (encodeItem s.cfg (.code b)) = t := by
  simp only [exec, execEncCode]
  split <;> simp_all

/-! ### Commands and the instructions inside them -/

/-- The rows of the opcode table that the host issues: the four commands and the two abbreviations (R76, R81). -/
def isCommand : Instr → Bool
  | .feed _ | .tryDecode | .encode _ | .matchMsgs _ _ | .poll _ | .drain => true
  | _ => false

/-- A command is the instruction of some act of the host. -/
theorem isCommand_iff {i : Instr} : isCommand i = true ↔ ∃ a : HostAct, a.instr = some i := by
  constructor
  · intro h
    cases i with
    | feed chunk =>
      exact ⟨.command 0 (chunk.map byteRecord) [], by
        simp only [HostAct.instr, decodeCommand, map_byteRecord_byte]; rfl⟩
    | tryDecode => exact ⟨.command 1 [] [], rfl⟩
    | encode els =>
      exact ⟨.command 2 (els.map Element.record) [], by
        simp only [HostAct.instr, decodeCommand, map_record_element]; rfl⟩
    | matchMsgs x y =>
      exact ⟨.command 3 (x.map Element.record) (y.map Element.record), by
        simp only [HostAct.instr, decodeCommand, map_record_element]; rfl⟩
    | poll chunk => exact ⟨.poll chunk, rfl⟩
    | drain => exact ⟨.drain, rfl⟩
    | _ => cases h
  · rintro ⟨a, ha⟩
    cases a with
    | reset => cases ha
    | command op a b =>
      cases ha
      unfold decodeCommand
      rcases op_cases op with rfl | rfl | rfl | rfl <;> rfl
    | poll chunk => cases ha; rfl
    | drain => cases ha; rfl

/-- A command leaves the port level alone (R48, R51). -/
theorem exec_command_frame {i : Instr} (hi : isCommand i = true) (h : exec i s = .next t) :
    t.stage = s.stage ∧ t.work = s.work := by
  obtain ⟨a, ha⟩ := isCommand_iff.mp hi
  rw [exec_hostAct ha h]
  exact ⟨rfl, rfl⟩

/-- An instruction inside a command changes the stage and the transient registers alone (R33). -/
theorem exec_inner_frame {i : Instr} (hi : isCommand i = false) (h : exec i s = .next t) :
    t = { s with stage := t.stage, work := t.work } := by
  cases i with
  | feed | tryDecode | encode | matchMsgs | poll | drain => cases hi
  | encCode b =>
    obtain ⟨-, rfl⟩ := exec_encCode_eq_next_iff.mp h
    rfl
  | _ => cases h; rfl

/-- Inside a command, no instruction changes the backlog or answers (R22). -/
theorem exec_inner_bl_sent {i : Instr} (hi : isCommand i = false) (h : exec i s = .next t) :
    t.bl = s.bl ∧ t.sent = s.sent := by
  rw [exec_inner_frame hi h]
  exact ⟨rfl, rfl⟩

end

/-! ### How the backlog changes -/

/-- FEED keeps a suffix of the backlog with the chunk appended: all of it or nothing (R92). -/
theorem feedBacklog_suffix (c : Cfg) (bl chunk : List Byte) : feedBacklog c bl chunk <:+ bl ++ chunk := by
  rcases feedBacklog_cases c bl chunk with ⟨-, h⟩ | ⟨-, h⟩
  · exact h ▸ List.nil_suffix
  · exact h ▸ List.suffix_rfl

/-! ### The synchronisation phases -/

section
variable (c : Cfg)

/-- The first occurrence past a byte whose place is given by a split is the first in the rest. -/
theorem first_after_split (pre rest : List Byte) (b e : Byte) :
    first (pre ++ b :: rest) e (pre.length + 1) = (first rest e 0).map (· + (pre.length + 1)) := by
  simpa using first_append (pre := pre ++ [b]) (rest := rest) (b := e)

theorem syncPhase_of_no_start {bl : List Byte} (h : c.bStart ∉ bl) : syncPhase c bl = .hunting := by
  have hs : first bl c.bStart 0 = none := first_eq_none_iff.mpr h
  simp [syncPhase, hs]

theorem syncPhase_of_no_end {pre rest : List Byte} (hpre : c.bStart ∉ pre) (hrest : c.bEnd ∉ rest) :
    syncPhase c (pre ++ c.bStart :: rest) = .inFrame := by
  have he : first rest c.bEnd 0 = none := first_eq_none_iff.mpr hrest
  simp [syncPhase, first_of_split hpre, first_after_split, he]

theorem syncPhase_of_frame {pre span : List Byte} (post : List Byte) (hpre : c.bStart ∉ pre) (hspan : c.bEnd ∉ span) :
    syncPhase c (pre ++ c.bStart :: (span ++ c.bEnd :: post)) = .frameReady := by
  simp [syncPhase, first_of_split hpre, first_after_split, first_of_split hspan]

/-- Every backlog is of one of the three forms: no start; a first start and no end after it; a first start and a first
end after it (R35). -/
theorem backlog_forms (bl : List Byte) :
    c.bStart ∉ bl
      ∨ (∃ pre rest, bl = pre ++ c.bStart :: rest ∧ c.bStart ∉ pre ∧ c.bEnd ∉ rest)
      ∨ ∃ pre span post, bl = pre ++ c.bStart :: (span ++ c.bEnd :: post) ∧ c.bStart ∉ pre ∧ c.bEnd ∉ span := by
  by_cases hs : c.bStart ∈ bl
  · obtain ⟨pre, rest, rfl, hpre⟩ := List.eq_append_cons_of_mem hs
    by_cases he : c.bEnd ∈ rest
    · obtain ⟨span, post, rfl, hspan⟩ := List.eq_append_cons_of_mem he
      exact .inr (.inr ⟨pre, span, post, rfl, hpre, hspan⟩)
    · exact .inr (.inl ⟨pre, rest, rfl, hpre, he⟩)
  · exact .inl hs

/-- A phase tells the form of the backlog, the three phases being distinct. -/
theorem form_of_syncPhase {bl : List Byte} :
    match syncPhase c bl with
    | .hunting => c.bStart ∉ bl
    | .inFrame => ∃ pre rest, bl = pre ++ c.bStart :: rest ∧ c.bStart ∉ pre ∧ c.bEnd ∉ rest
    | .frameReady =>
      ∃ pre span post, bl = pre ++ c.bStart :: (span ++ c.bEnd :: post) ∧ c.bStart ∉ pre ∧ c.bEnd ∉ span := by
  rcases backlog_forms c bl with h | ⟨pre, rest, rfl, hpre, hrest⟩ | ⟨pre, span, post, rfl, hpre, hspan⟩
  · rw [syncPhase_of_no_start c h]
    exact h
  · rw [syncPhase_of_no_end c hpre hrest]
    exact ⟨pre, rest, rfl, hpre, hrest⟩
  · rw [syncPhase_of_frame c post hpre hspan]
    exact ⟨pre, span, post, rfl, hpre, hspan⟩

theorem syncPhase_hunting_iff {bl : List Byte} : syncPhase c bl = .hunting ↔ c.bStart ∉ bl :=
  ⟨fun h => by simpa only [h] using form_of_syncPhase c (bl := bl), syncPhase_of_no_start c⟩

theorem syncPhase_inFrame_iff {bl : List Byte} :
    syncPhase c bl = .inFrame ↔ ∃ pre rest, bl = pre ++ c.bStart :: rest ∧ c.bStart ∉ pre ∧ c.bEnd ∉ rest := by
  refine ⟨fun h => by simpa only [h] using form_of_syncPhase c (bl := bl), ?_⟩
  rintro ⟨pre, rest, rfl, hpre, hrest⟩
  exact syncPhase_of_no_end c hpre hrest

theorem syncPhase_frameReady_iff {bl : List Byte} :
    syncPhase c bl = .frameReady
      ↔ ∃ pre span post, bl = pre ++ c.bStart :: (span ++ c.bEnd :: post) ∧ c.bStart ∉ pre ∧ c.bEnd ∉ span := by
  refine ⟨fun h => by simpa only [h] using form_of_syncPhase c (bl := bl), ?_⟩
  rintro ⟨pre, span, post, rfl, hpre, hspan⟩
  exact syncPhase_of_frame c post hpre hspan

/-- TRY_DECODE answers a message exactly where a frame is ready (R35). -/
theorem tryDecode_isSome_iff (bl : List Byte) :
    (tryDecode c bl).2.isSome = true ↔ syncPhase c bl = .frameReady := by
  rcases tryDecode_cases c bl with ⟨hs, h⟩ | ⟨s, hs, he, h⟩ | ⟨s, e, hs, he, h⟩
  · simp [syncPhase, h, hs]
  · simp [syncPhase, h, hs, he]
  · simp [syncPhase, h, hs, he]

end

/-! ### FEED's latch -/

section
variable {ceiling blen : Nat} {w : Work} (r : Record)

/-- With the latch set, a byte changes nothing (R33). -/
theorem Work.takeFeedByte_of_over (h : w.feedOver = true) : w.takeFeedByte ceiling blen r = w := if_pos h

/-- The byte that brings the total to the ceiling is counted and sets the latch (R33, R106). -/
theorem Work.takeFeedByte_of_reaches (h : w.feedOver = false) (hc : ceiling ≤ blen + (w.feedCount + 1)) :
    w.takeFeedByte ceiling blen r = { w with feedCount := w.feedCount + 1, feedOver := true } := by
  simp [Work.takeFeedByte, h, hc]

/-- A byte short of that is stored and counted (R33). -/
theorem Work.takeFeedByte_of_below (h : w.feedOver = false) (hc : blen + (w.feedCount + 1) < ceiling) :
    w.takeFeedByte ceiling blen r = { w with feedCount := w.feedCount + 1, aBuf := w.aBuf ++ [r] } := by
  simp [Work.takeFeedByte, h, hc]

end

section
variable {ceiling blen : Nat}

/-- The latch stays set (R33). -/
theorem Work.foldl_takeFeedByte_of_over (chunk : List Record) {w : Work} (h : w.feedOver = true) :
    chunk.foldl (fun acc r => acc.takeFeedByte ceiling blen r) w = w :=
  List.foldl_fixed' (fun r => Work.takeFeedByte_of_over r h) chunk

/-- A chunk that keeps the total below the ceiling is stored and counted whole (R33). -/
theorem Work.foldl_takeFeedByte_of_below (chunk : List Record) : ∀ w : Work, w.feedOver = false →
    blen + (w.feedCount + chunk.length) < ceiling →
    chunk.foldl (fun acc r => acc.takeFeedByte ceiling blen r) w
      = { w with feedCount := w.feedCount + chunk.length, aBuf := w.aBuf ++ chunk } := by
  induction chunk with
  | nil => intro w _ _; simp
  | cons r rest ih =>
    intro w hover hlt
    rw [List.length_cons] at hlt
    rw [List.foldl_cons, Work.takeFeedByte_of_below r hover (by omega), ih]
    · simp [Nat.add_comm, Nat.add_left_comm]
    · exact hover
    · dsimp only
      omega

/-- A chunk that brings the total to the ceiling sets the latch (R33, R106). -/
theorem Work.foldl_takeFeedByte_of_reaches (chunk : List Record) : ∀ w : Work, w.feedOver = false →
    blen + w.feedCount < ceiling → ceiling ≤ blen + (w.feedCount + chunk.length) →
    (chunk.foldl (fun acc r => acc.takeFeedByte ceiling blen r) w).feedOver = true := by
  induction chunk with
  | nil => intro w _ hlt hle; exact absurd hle hlt.not_ge
  | cons r rest ih =>
    intro w hover hlt hle
    rw [List.length_cons] at hle
    rw [List.foldl_cons]
    by_cases hr : ceiling ≤ blen + (w.feedCount + 1)
    · rw [Work.takeFeedByte_of_reaches r hover hr, Work.foldl_takeFeedByte_of_over rest rfl]
    · rw [Work.takeFeedByte_of_below r hover (by omega)]
      apply ih <;> dsimp only
      · exact hover
      · omega
      · omega

end

/-! ### What a step keeps -/

section
variable {s t : State} {p : Pins}

/-- The host's lists are no part of the invariant. -/
theorem State.inv_congr (hcfg : t.cfg = s.cfg) (hbl : t.bl = s.bl) (hstage : t.stage = s.stage)
    (hwork : t.work = s.work) (hs : s.Inv) : t.Inv := by
  obtain ⟨cfg, bl, stage, work, script, edges, sent, taken⟩ := s
  cases hcfg
  cases hbl
  cases hstage
  cases hwork
  exact hs

/-- The host's next act keeps the invariant, with no command in progress. -/
theorem State.act_inv {a : HostAct} (hs : s.Inv) (hidle : s.stage = .idle) (h : (s.act a).perform = .next t) :
    t.Inv := by
  unfold State.act at h
  cases ha : a.instr with
  | none =>
    rw [ha] at h
    cases h
    exact s.applyReset_inv
  | some i =>
    rw [ha] at h
    exact exec_hostAct_inv hs hidle ha h

theorem State.act_cfg {a : HostAct} (h : (s.act a).perform = .next t) : t.cfg = s.cfg := by
  unfold State.act at h
  cases ha : a.instr with
  | none =>
    rw [ha] at h
    cases h
    rfl
  | some i =>
    rw [ha] at h
    exact (exec_environment h).1

/-- Every step keeps the invariant: it is an act of the host taken whole or one edge. -/
theorem step_inv (hs : s.Inv) (h : step s = .next t) : t.Inv := by
  rcases step_cases h with ⟨hidle, a, rest, -, hact⟩ | ⟨-, hedge⟩
  · exact State.act_inv (s := { s with script := rest }) (State.inv_congr rfl rfl rfl rfl hs) hidle hact
  · exact State.edge_inv (s := { s with edges := s.edges.tail }) (State.inv_congr rfl rfl rfl rfl hs) hedge

theorem State.matchPosition_cfg (s : State) : s.matchPosition.cfg = s.cfg := by
  unfold State.matchPosition
  repeat' split
  all_goals rfl

theorem State.responseTaken_cfg (s : State) : s.responseTaken.cfg = s.cfg := by
  unfold State.responseTaken
  dsimp only
  split <;> rfl

theorem State.resultTaken_cfg (s : State) : s.resultTaken.cfg = s.cfg := by
  unfold State.resultTaken
  split <;> rfl

theorem State.scan_cfg {look : Byte → Fetched} {mark : Byte} {i : Instr} {no : Reject}
    (hl : ∀ b, decode s.cfg (look b) = if b = mark then .ok i else .error no)
    (h : (s.scan look).perform = .next t) : t.cfg = s.cfg := by
  rcases State.scan_perform hl h with rfl | hi | rfl
  · rfl
  · exact (exec_environment hi).1
  · rfl

/-- No edge writes the configuration (R27). -/
theorem State.edge_cfg (h : (s.edge p).perform = .next t) : t.cfg = s.cfg := by
  cases hr : p.rst with
  | true =>
    rw [State.edge_reset hr] at h
    cases h
    rfl
  | false =>
    cases hst : s.stage with
    | idle =>
      rw [State.edge_idle hr hst] at h
      cases h
      split <;> rfl
    | operands =>
      rw [State.edge_operands hr hst] at h
      cases h
      rfl
    | append =>
      rw [State.edge_append hr hst] at h
      cases h
      rfl
    | scanStart => exact State.scan_cfg (fun _ => rfl) (State.edge_scanStart hr hst ▸ h)
    | scanEnd => exact State.scan_cfg (fun _ => rfl) (State.edge_scanEnd hr hst ▸ h)
    | items =>
      rcases State.edge_items_cases hr hst with ⟨-, he⟩ | ⟨i, el, -, -, he⟩ <;> rw [he] at h <;> cases h <;> rfl
    | encoding =>
      cases hp : s.work.aBuf[s.work.pos]? with
      | some r =>
        rw [State.edge_record hr hst hp] at h
        exact (exec_environment h).1
      | none =>
        rw [State.edge_encoded hr hst hp] at h
        cases h
        rfl
    | matching =>
      rw [State.edge_matching hr hst] at h
      cases h
      exact s.matchPosition_cfg
    | respond =>
      rw [State.edge_respond hr hst] at h
      cases h
      split
      · exact s.responseTaken_cfg
      · rfl
    | result =>
      rw [State.edge_result hr hst] at h
      cases h
      split
      · exact s.resultTaken_cfg
      · rfl

theorem step_cfg (h : step s = .next t) : t.cfg = s.cfg := by
  rcases step_cases h with ⟨-, a, rest, -, hact⟩ | ⟨-, hedge⟩
  · exact State.act_cfg (s := { s with script := rest }) hact
  · exact State.edge_cfg (s := { s with edges := s.edges.tail }) hedge

end

/-- The state after reset is one that a reset leaves, so it meets the invariant (R37, R200). -/
theorem State.resetWith_inv (c : Cfg) : (State.resetWith c).Inv := (State.resetWith c).applyReset_inv

end Sys2Proof.Machine

namespace Sys2Proof

open Machine

/-- Settles O47: `step_inv`, by stages for an edge and by commands for an act of the host. -/
theorem everyStepKeepsTheInvariant : Obligations.EveryStepKeepsTheInvariant := fun _ _ => step_inv

/-- Settles O37: the three forms of the backlog, one for each phase. -/
theorem someExactlyWhenFrameReady : Obligations.SomeExactlyWhenFrameReady := fun s =>
  ⟨s.tryDecode, (tryDecode s.cfg s.bl).2, rfl, rfl, tryDecode_isSome_iff s.cfg s.bl, syncPhase_hunting_iff s.cfg,
    syncPhase_inFrame_iff s.cfg, syncPhase_frameReady_iff s.cfg⟩

/-- Settles O39: FEED by its guard, an extraction by the suffix it keeps, any other instruction by its frame. -/
theorem backlogChangesInThreeWays : Obligations.BacklogChangesInThreeWays := by
  intro i s t h
  refine ⟨?feed, ?poll, ?extract, ?other⟩
  case feed =>
    rintro chunk rfl
    cases h
    exact (feedBacklog_cases s.cfg s.bl chunk).imp And.right And.right
  case poll =>
    rintro chunk rfl
    cases h
    exact (tryDecode_suffix s.cfg _).trans (feedBacklog_suffix s.cfg s.bl chunk)
  case extract =>
    rintro (rfl | rfl) <;> cases h
    · exact tryDecode_suffix s.cfg s.bl
    · exact State.drain_suffix _ s
  case other =>
    intro hfeed hpoll htry hdrain
    cases i with
    | feed chunk => exact absurd rfl (hfeed chunk)
    | poll chunk => exact absurd rfl (hpoll chunk)
    | tryDecode => exact absurd rfl htry
    | drain => exact absurd rfl hdrain
    | encode els =>
      obtain ⟨-, rfl⟩ := exec_encode_eq_next_iff.mp h
      rfl
    | matchMsgs x y => cases h; rfl
    | _ => exact (exec_inner_bl_sent rfl h).1

/-- Settles O40: each command answers from the backlog and the configuration; the instructions inside a command answer
nothing, and complete by the configuration alone. -/
theorem responsesDependOnTheBacklogAlone : Obligations.ResponsesDependOnTheBacklogAlone := by
  intro i s1 s2 t1 hcfg hbl h
  cases i with
  | feed chunk =>
    cases h
    exact ⟨s2.feed chunk, rfl, by simp [hcfg, hbl], [.done], rfl, rfl⟩
  | tryDecode =>
    cases h
    exact ⟨s2.tryDecode, rfl, by simp [hcfg, hbl], [.decoded (tryDecode s2.cfg s2.bl).2], by simp [hcfg, hbl], rfl⟩
  | poll chunk =>
    cases h
    exact ⟨(s2.feed chunk).tryDecode, rfl, by simp [hcfg, hbl],
      [.done, .decoded (tryDecode s2.cfg (feedBacklog s2.cfg s2.bl chunk)).2], by simp [hcfg, hbl], by simp⟩
  | drain =>
    cases h
    obtain ⟨hkept, answers, h1, h2⟩ := State.drain_congr s1.bl.length s1 s2 hcfg hbl
    exact ⟨State.drain s2.bl.length s2, rfl, hbl ▸ hkept.symm, answers, h1, hbl ▸ h2⟩
  | encode els =>
    obtain ⟨hw, rfl⟩ := exec_encode_eq_next_iff.mp h
    exact ⟨_, exec_encode_eq_next_iff.mpr ⟨hcfg ▸ hw, rfl⟩, hbl.symm, [.bytes (encodeFrame s2.cfg els)],
      by simp [hcfg], rfl⟩
  | matchMsgs x y =>
    cases h
    exact ⟨_, rfl, hbl.symm, [.verdict (matchResult x y)], rfl, rfl⟩
  | encCode b =>
    obtain ⟨hd, rfl⟩ := exec_encCode_eq_next_iff.mp h
    exact ⟨_, exec_encCode_eq_next_iff.mpr ⟨hcfg ▸ hd, rfl⟩, hbl.symm, [], (List.append_nil _).symm,
      (List.append_nil _).symm⟩
  | _ =>
    cases h
    exact ⟨_, rfl, hbl.symm, [], (List.append_nil _).symm, (List.append_nil _).symm⟩

/-- Settles O42: the frames of the commands and of the instructions inside them, an item and a record by the two
registers each of them writes. -/
theorem instructionFrames : Obligations.InstructionFrames := by
  refine ⟨fun i s t => exec_environment, ?command, ?item, ?record, ?delimiter⟩
  case command =>
    rintro s t chunk els x y (h | h | h | h | h | h) <;> exact exec_command_frame rfl h
  case item =>
    rintro s t w b rest (h | h | h | h | h | h) <;> cases h <;> rfl
  case record =>
    rintro s t w b (h | h | h | h)
    · obtain ⟨-, rfl⟩ := exec_encCode_eq_next_iff.mp h
      rfl
    all_goals cases h; rfl
  case delimiter =>
    rintro s t (h | h) <;>
    · obtain ⟨hbl, hsent⟩ := exec_inner_bl_sent rfl h
      exact ⟨hbl, hsent, fun k => congrArg (·[k]?) hbl⟩

/-- Settles O43: neither an act of the host nor an edge writes the configuration. -/
theorem configurationNeverChanges : Obligations.ConfigurationNeverChanges := fun _ _ => step_cfg

/-- Settles O49: the invariant after the step bounds the length, and the counter is wide enough for the ceiling. -/
theorem lengthCounterFits : Obligations.LengthCounterFits := by
  intro s t hs h
  obtain ⟨hlt, -⟩ := step_inv hs h
  exact ⟨hlt, hlt.trans_le (Nat.le_pow_clog (by decide) t.cfg.ceiling)⟩

/-- Settles O54: short of the ceiling the chunk is stored whole; otherwise one of its bytes sets the latch for good. -/
theorem feedLatchSetsAtTheCeiling : Obligations.FeedLatchSetsAtTheCeiling := by
  intro ceiling blen chunk w hover hcount hlt
  rw [← hcount] at hlt ⊢
  rw [Nat.add_assoc]
  by_cases hc : ceiling ≤ blen + (w.feedCount + chunk.length)
  · exact ⟨iff_of_true (Work.foldl_takeFeedByte_of_reaches chunk w hover hlt hc) hc, fun h => absurd hc h.not_ge⟩
  · rw [Work.foldl_takeFeedByte_of_below chunk w hover (not_le.mp hc)]
    exact ⟨iff_of_false (by simp [hover]) hc, fun _ => ⟨rfl, rfl⟩⟩

/-- Settles O22: flag and stream of each response. -/
theorem responseBeats : Obligations.ResponseBeats := fun _ => ⟨rfl, rfl, fun _ => rfl, fun _ => rfl, fun _ => rfl⟩

/-- Settles O24: a code is its byte, so the lookup inverts `byte_of` on DEF, which holds `NONE` and the tags. -/
theorem codeTableLookup : Obligations.CodeTableLookup := fun c =>
  ⟨fun _ => c.codeOf_of_isDef, fun _ => c.codeOf_of_not_isDef, fun _ => c.codeOf_of_isDef,
    c.codeOf_of_isDef c.isDef_bNone, fun b => by simp [Cfg.isTag, or_assoc],
    fun b => by simp [Cfg.isStructural, Cfg.isTag, or_assoc],
    fun b h => by rw [c.codeOf_of_not_isDef h, c.isTag_bNone]⟩

/-- Settles O41: ENCODE checks and frames its elements by the configuration alone, and MATCH reads kinds alone. -/
theorem encodeAndMatchArePure : Obligations.EncodeAndMatchArePure := by
  rintro i s1 s2 t1 (⟨els, rfl⟩ | ⟨x, y, rfl⟩) hcfg h
  · obtain ⟨hw, rfl⟩ := exec_encode_eq_next_iff.mp h
    exact ⟨.bytes (encodeFrame s1.cfg els), rfl, exec_encode_eq_next_iff.mpr ⟨hcfg ▸ hw, by rw [hcfg]; rfl⟩⟩
  · cases h
    exact ⟨.verdict (matchResult x y), rfl, rfl⟩

/-- Settles O44: the fields of the state after reset. -/
theorem resetLeavesAnEmptyBacklog : Obligations.ResetLeavesAnEmptyBacklog := fun _ => ⟨rfl, rfl, rfl, rfl, rfl⟩

/-- Settles O48: the state after reset is a fixed point of reset, which meets the invariant from any state. -/
theorem resetMeetsTheInvariant : Obligations.ResetMeetsTheInvariant :=
  ⟨State.resetWith_inv, State.resetWith_inv Cfg.t0⟩

end Sys2Proof
end

section
/-! PROOFS of the statements about the backlog as memory (20_memory.md): an unanswered TRY_DECODE, positions, the edge
on which the backlog changes on the ports, and the host's acts taken whole. -/

namespace Sys2Proof.Machine

/-! ### FEED and TRY_DECODE by their answers -/

/-- Short of the ceiling, FEED appends (R92). -/
theorem feedBacklog_of_lt {c : Cfg} {bl chunk : List Byte} (h : bl.length + chunk.length < c.ceiling) :
    feedBacklog c bl chunk = bl ++ chunk := if_neg h.not_ge

/-- A message comes with a first start and a first end after it, and the backlog is what follows that end (R95). -/
theorem tryDecode_of_some {c : Cfg} {bl : List Byte} {m : Message} (h : (tryDecode c bl).2 = some m) :
    ∃ start e, first bl c.bStart 0 = some start ∧ first bl c.bEnd (start + 1) = some e
      ∧ (tryDecode c bl).1 = bl.drop (e + 1) := by
  rcases tryDecode_cases c bl with ⟨-, hd⟩ | ⟨-, -, -, hd⟩ | ⟨start, e, hs, he, hd⟩
  · simp [hd] at h
  · simp [hd] at h
  · exact ⟨start, e, hs, he, by rw [hd]⟩

section
variable {s t : State}

/-- The last response tells TRY_DECODE's answer (R36). -/
theorem State.tryDecode_sent_iff {m : Option Message} :
    s.tryDecode.sent = s.sent ++ [.decoded m] ↔ (Machine.tryDecode s.cfg s.bl).2 = m := by simp

/-- Where the answer is `None`, answering is all that TRY_DECODE does (R48). -/
theorem State.tryDecode_of_none (h : (Machine.tryDecode s.cfg s.bl).2 = none) :
    s.tryDecode = s.answer (.decoded none) := by
  rw [State.tryDecode, tryDecode_none s.cfg h, h]
  rfl

/-! ### The backlog on the ports -/

theorem State.matchPosition_bl (s : State) : s.matchPosition.bl = s.bl := by
  unfold State.matchPosition
  repeat' split
  all_goals rfl

theorem State.responseTaken_bl (s : State) : s.responseTaken.bl = s.bl := by
  unfold State.responseTaken
  dsimp only
  split <;> rfl

theorem State.resultTaken_bl (s : State) : s.resultTaken.bl = s.bl := by
  unfold State.resultTaken
  split <;> rfl

/-- A scan for a delimiter leaves the backlog as it is (R93, R94). -/
theorem State.scan_bl {look : Byte → Fetched} {mark : Byte} {i : Instr} {no : Reject}
    (hl : ∀ b, decode s.cfg (look b) = if b = mark then .ok i else .error no) (hi : isCommand i = false)
    (h : (s.scan look).perform = .next t) : t.bl = s.bl := by
  rcases State.scan_perform hl h with rfl | hrun | rfl
  · rfl
  · exact (exec_inner_bl_sent hi hrun).1
  · rfl

/-- Without reset, the backlog changes only on the edge that makes the response of FEED or of a decoded frame ready
(R48, R77). -/
theorem State.edge_bl_cases {p : Pins} (hr : p.rst = false) (h : (s.edge p).perform = .next t) :
    t.bl = s.bl ∨ ((s.stage = .append ∨ s.stage = .items) ∧ t.stage = .respond ∧ t.work.op = s.work.op) := by
  cases hst : s.stage with
  | append =>
    rw [State.edge_append hr hst] at h
    cases h
    exact .inr ⟨.inl rfl, rfl, rfl⟩
  | items =>
    rcases State.edge_items_cases hr hst with ⟨-, he⟩ | ⟨i, el, -, -, he⟩ <;> rw [he] at h <;> cases h
    · exact .inr ⟨.inr rfl, rfl, rfl⟩
    · exact .inl rfl
  | idle =>
    rw [State.edge_idle hr hst] at h
    cases h
    left
    split <;> rfl
  | operands =>
    rw [State.edge_operands hr hst] at h
    cases h
    exact .inl rfl
  | scanStart => exact .inl (State.scan_bl (fun _ => rfl) rfl (State.edge_scanStart hr hst ▸ h))
  | scanEnd => exact .inl (State.scan_bl (fun _ => rfl) rfl (State.edge_scanEnd hr hst ▸ h))
  | encoding =>
    cases hp : s.work.aBuf[s.work.pos]? with
    | some r =>
      rw [State.edge_record hr hst hp] at h
      exact .inl (by rw [exec_record h, State.append_bl])
    | none =>
      rw [State.edge_encoded hr hst hp] at h
      cases h
      exact .inl rfl
  | matching =>
    rw [State.edge_matching hr hst] at h
    cases h
    exact .inl s.matchPosition_bl
  | respond =>
    rw [State.edge_respond hr hst] at h
    cases h
    left
    split
    · exact s.responseTaken_bl
    · rfl
  | result =>
    rw [State.edge_result hr hst] at h
    cases h
    left
    split
    · exact s.resultTaken_bl
    · rfl

/-- With no act of the host to take, a step is one edge. -/
theorem step_of_no_act (hscript : s.script = []) :
    step s = (({ s with edges := s.edges.tail } : State).edge (s.edges.headD Pins.quiet)).perform :=
  congrArg Action.perform (State.plan_edge fun _ => hscript)

/-- An edge with `rst` is one the host drives (R201). -/
theorem edges_eq_cons_of_rst {edges : List Pins} (h : (edges.headD Pins.quiet).rst = true) :
    ∃ p rest, edges = p :: rest ∧ p.rst = true := by
  cases edges with
  | nil => cases h
  | cons p rest => exact ⟨p, rest, rfl, h⟩

/-- With no command in progress, reset as the host's act empties the backlog and the transient registers (R200). -/
theorem step_reset {rest : List HostAct} (hidle : s.stage = .idle) (hscript : s.script = .reset :: rest) :
    step s = .next { s with script := rest, bl := [], work := Work.init } := by
  simp [step, State.plan_act hidle hscript, State.act, HostAct.instr, State.applyReset, hidle]

end

end Sys2Proof.Machine

namespace Sys2Proof

open Machine

/-- Settles O33: the answer `None` is all that TRY_DECODE adds, and it depends on the backlog alone, which is kept. -/
theorem noneLeavesTheBacklog : Obligations.NoneLeavesTheBacklog := by
  intro s t h hsent
  cases h
  have hnone := State.tryDecode_sent_iff.mp hsent
  rw [State.tryDecode_of_none hnone]
  exact ⟨rfl, congrArg Host.Outcome.next (State.tryDecode_of_none (s := s.answer (.decoded none)) hnone)⟩

/-- Settles O34: an index into an appended list, and one into a list with its first `e + 1` bytes dropped. -/
theorem backlogPositions : Obligations.BacklogPositions := by
  refine ⟨?append, ?extraction⟩
  case append =>
    intro s t chunk hlt h
    cases h
    have hbl : (s.feed chunk).bl = s.bl ++ chunk := feedBacklog_of_lt hlt
    simp only [State.readByte, hbl]
    refine ⟨fun k hk => List.getElem?_append_left hk, fun k => ?_⟩
    rw [List.getElem?_append_right (Nat.le_add_right _ k), Nat.add_sub_cancel_left]
  case extraction =>
    intro s t m h hsent
    cases h
    obtain ⟨start, e, hs, he, hbl⟩ := tryDecode_of_some (State.tryDecode_sent_iff.mp hsent)
    exact ⟨start, e, hs, he, fun k => by simp only [State.readByte, State.tryDecode_bl, hbl, List.getElem?_drop]⟩

/-- Settles O53: the step is an edge, with `rst` or stage by stage. -/
theorem backlogChangesWithTheResponse : Obligations.BacklogChangesWithTheResponse := by
  intro s t hscript h
  rw [step_of_no_act hscript] at h
  cases hr : (s.edges.headD Pins.quiet).rst with
  | true =>
    rw [State.edge_reset hr] at h
    cases h
    obtain ⟨p, rest, hedges, hp⟩ := edges_eq_cons_of_rst hr
    exact .inr (.inr ⟨p, rest, hedges, hp, rfl⟩)
  | false => exact (State.edge_bl_cases hr h).imp_right .inl

/-- Settles O14: `step_act` for the commands and the abbreviations, and `step_reset`. -/
theorem stepRunsTheHostsAct : Obligations.StepRunsTheHostsAct := by
  refine ⟨?command, fun s chunk rest hidle hscript => step_act hidle hscript rfl,
    fun s rest hidle hscript => step_act hidle hscript rfl, fun s rest => step_reset⟩
  case command =>
    intro s op a b rest i hidle hscript hdecode
    cases hdecode
    exact step_act hidle hscript rfl

end Sys2Proof
end

section
/-! PROOFS of the statements about the encoding (30_encoding.md): decoding what was encoded, the item head, records
and payloads, beats, and the abbreviations. -/

namespace Sys2Proof

/-- Settles O18: one lemma of Laws/PerInstr.lean for each constructor. -/
theorem decodeEncodeAgree : Obligations.DecodeEncodeAgree := by
  intro c i hwf
  cases i with
  | feed chunk => exact Laws.RoundTrip.feed chunk c hwf
  | tryDecode => exact Laws.RoundTrip.tryDecode c hwf
  | encode els => exact Laws.RoundTrip.encode els c hwf
  | matchMsgs candidate template => exact Laws.RoundTrip.matchMsgs candidate template c hwf
  | startDelim => exact Laws.RoundTrip.startDelim c hwf
  | endDelim => exact Laws.RoundTrip.endDelim c hwf
  | f32Item w => exact Laws.RoundTrip.f32Item w c hwf
  | u32Item w => exact Laws.RoundTrip.u32Item w c hwf
  | i32Item w => exact Laws.RoundTrip.i32Item w c hwf
  | truncItem tag rest => exact Laws.RoundTrip.truncItem tag rest c hwf
  | codeItem b => exact Laws.RoundTrip.codeItem b c hwf
  | unknownByte b => exact Laws.RoundTrip.unknownByte b c hwf
  | encCode code => exact Laws.RoundTrip.encCode code c hwf
  | encF32 w => exact Laws.RoundTrip.encF32 w c hwf
  | encU32 w => exact Laws.RoundTrip.encU32 w c hwf
  | encI32 w => exact Laws.RoundTrip.encI32 w c hwf
  | poll chunk => exact Laws.RoundTrip.poll chunk c hwf
  | drain => exact Laws.RoundTrip.drain c hwf

/-! ### The item head -/

section
variable (c : Cfg)

theorem Cfg.isTag_iff {b : Byte} : c.isTag b = true ↔ b = c.bFloat ∨ b = c.bUint ∨ b = c.bInt := by
  simp [Cfg.isTag, or_assoc]

/-- The numeric item at a head is read from the tag and the four bytes after it, whatever follows (R65, R69). -/
theorem decodeItem_numeric {tag : Byte} (ht : c.isTag tag = true) (b1 b2 b3 b4 : Byte) (rest : List Byte) :
    decodeItem c (tag :: b1 :: b2 :: b3 :: b4 :: rest) = .ok (numericItem c tag (wordOfBytes b1 b2 b3 b4)) := by
  simp [decodeItem, ht, c.codeOf_of_isTag ht]

/-- A tag with four bytes after it or more is the numeric item of that tag (R69). -/
theorem eq_numericItem_of_decodeItem {c : Cfg} {tag : Byte} (ht : c.isTag tag = true) {rest : List Byte}
    (hr : 4 ≤ rest.length) {i : Instr} (hi : decodeItem c (tag :: rest) = .ok i) : ∃ w, i = numericItem c tag w := by
  match rest, hr with
  | b1 :: b2 :: b3 :: b4 :: more, _ =>
    cases hi.symm.trans (decodeItem_numeric c ht b1 b2 b3 b4 more)
    exact ⟨_, rfl⟩

theorem decodeItem_code {b : Byte} (hd : c.isDef b = true) (ht : c.isTag b = false) (rest : List Byte) :
    decodeItem c (b :: rest) = .ok (.codeItem b) := by
  simp [decodeItem, hd, ht]

theorem decodeItem_unknown {b : Byte} (hd : c.isDef b = false) (rest : List Byte) :
    decodeItem c (b :: rest) = .ok (.unknownByte b) := by
  have ht : c.isTag b = false := by rw [← c.isTag_codeOf, c.codeOf_of_not_isDef hd, c.isTag_bNone]
  simp [decodeItem, hd, ht]

theorem numericItem_bFloat (w : Word) : numericItem c c.bFloat w = .f32Item w := by simp [numericItem]

theorem numericItem_bUint (w : Word) : numericItem c c.bUint w = .u32Item w := by
  simp [numericItem, c.bUint_ne_bFloat]

theorem numericItem_bInt (w : Word) : numericItem c c.bInt w = .i32Item w := by
  simp [numericItem, c.bInt_ne_bFloat, c.bInt_ne_bUint]

end

/-- Settles O19: row by row, the item that the row's own lemma gives for the head. -/
theorem itemHeadTable : Obligations.ItemHeadTable := by
  intro c b rest
  obtain ⟨i, hi⟩ := decodeItem_ok c b rest
  refine ⟨i, hi, ?float, ?uint, ?int, ?trunc, ?code, ?unknown⟩
  case float =>
    rintro rfl hr
    obtain ⟨w, rfl⟩ := eq_numericItem_of_decodeItem c.isTag_bFloat hr hi
    rw [numericItem_bFloat]
    exact ⟨w, rfl, rfl, rfl⟩
  case uint =>
    rintro rfl hr
    obtain ⟨w, rfl⟩ := eq_numericItem_of_decodeItem c.isTag_bUint hr hi
    rw [numericItem_bUint]
    exact ⟨w, rfl, rfl, rfl⟩
  case int =>
    rintro rfl hr
    obtain ⟨w, rfl⟩ := eq_numericItem_of_decodeItem c.isTag_bInt hr hi
    rw [numericItem_bInt]
    exact ⟨w, rfl, rfl, rfl⟩
  case trunc =>
    intro htag hr
    cases hi.symm.trans (decodeItem_trunc c (c.isTag_iff.mpr htag) hr)
    exact ⟨rfl, rfl, rfl⟩
  case code =>
    intro hd htag
    cases hi.symm.trans (decodeItem_code c hd (by simpa using mt c.isTag_iff.mp htag) rest)
    exact ⟨rfl, rfl, by rw [Machine.itemElement, c.codeOf_of_isDef hd]⟩
  case unknown =>
    intro hd
    cases hi.symm.trans (decodeItem_unknown c hd rest)
    exact ⟨rfl, rfl, rfl⟩

/-! ### Records and payloads -/

/-- A byte widened to a record's data keeps its value: `data[31:8]` is zero (R75). -/
theorem byteRecord_toNat (b : Byte) : (byteRecord b).data.toNat = b.toNat :=
  BitVec.toNat_setWidth_of_le (by decide)

/-- The upper 24 bits of a record's data are no part of the byte it carries (R75). -/
theorem Record.byte_append (kind : BitVec 2) (high : BitVec 24) (b : Byte) : (Record.mk kind (high ++ b)).byte = b :=
  BitVec.extractLsb'_append_eq_right

/-- Settles O20: `data[7:0]` is cut out of the word, so what stands above it is ignored. -/
theorem elementRecordLayout : Obligations.ElementRecordLayout := by
  refine ⟨fun b => ⟨rfl, byteRecord_toNat b⟩, fun w => ⟨rfl, rfl, rfl⟩,
    fun high b => congrArg Element.code (Record.byte_append 0 high b), fun w => ⟨rfl, rfl, rfl⟩, Record.byte_append,
    fun b => ⟨rfl, byteRecord_toNat b⟩, fun w => ⟨w.extractLsb' 0 8, rfl, by simp⟩⟩

/-- Four bytes after a head, read as one little-endian number (R14, R65). -/
theorem memRead_payload (tag b1 b2 b3 b4 : Byte) (rest : List Byte) :
    memRead (tag :: b1 :: b2 :: b3 :: b4 :: rest) 1 4 = some (wordOfBytes b1 b2 b3 b4).toNat := by
  simp [memRead, slice, wordOfBytes_toNat]
  omega

/-- Settles O21: the word is the sum of its bytes, and its slices are those bytes. -/
theorem payloadIsLittleEndian : Obligations.PayloadIsLittleEndian := by
  intro c tag b1 b2 b3 b4 rest htag
  exact ⟨wordOfBytes b1 b2 b3 b4, memRead_payload tag b1 b2 b3 b4 rest, wordOfBytes_toNat b1 b2 b3 b4,
    bytesOfWord_wordOfBytes b1 b2 b3 b4, decodeItem_numeric c htag b1 b2 b3 b4 rest⟩

/-- Settles O25: the lines read under T0's names. -/
theorem scriptLinesReadAsActs : Obligations.ScriptLinesReadAsActs := by
  unfold Obligations.ScriptLinesReadAsActs
  decide

end Sys2Proof

namespace Sys2Proof.Machine

/-! ### Beats -/

theorem valueBeats_cons (r : Record) (rest : List Record) :
    valueBeats (r :: rest) = .value (decide (rest = [])) r :: valueBeats rest := by
  cases rest <;> simp [valueBeats]

theorem valueBeats_length (rs : List Record) : (valueBeats rs).length = rs.length := by
  induction rs with
  | nil => rfl
  | cons r rest ih => rw [valueBeats_cons, List.length_cons, List.length_cons, ih]

/-- The beat at a position carries the value there, with `last` at the last position alone (R78). -/
theorem valueBeats_getElem? {rs : List Record} {k : Nat} {r : Record} (h : rs[k]? = some r) :
    (valueBeats rs)[k]? = some (.value (decide (k + 1 = rs.length)) r) := by
  induction rs generalizing k with
  | nil => simp at h
  | cons x rest ih =>
    rw [valueBeats_cons]
    cases k with
    | zero =>
      cases h
      simp
    | succ k =>
      rw [List.getElem?_cons_succ] at h ⊢
      simpa using ih h

/-- Settles O23: `valueBeats` gives each value its beat, the empty sequence being apart. -/
theorem sequencesAreBeats : Obligations.SequencesAreBeats := by
  refine ⟨rfl, fun rs hne => ?_⟩
  rw [resultBeats, if_neg hne]
  exact ⟨valueBeats_length rs, fun _ _ => valueBeats_getElem?⟩

/-! ### The round trip of a wire-safe sequence -/

section
variable {c : Cfg} {els : Message}

/-- A numeric item holds the end delimiter only in its payload, a tag being another byte (R62, R63). -/
theorem bEnd_notMem_numeric {tag : Byte} (ht : c.isTag tag = true) {w : Word} (hw : c.bEnd ∉ bytesOfWord w) :
    c.bEnd ∉ tag :: bytesOfWord w := by
  have hne : c.bEnd ≠ tag := by
    rintro rfl
    simp [c.bEnd_ne_tag] at ht
  exact List.not_mem_cons_of_ne_of_not_mem hne hw

/-- R63's wire-safety gives the first condition of R136. -/
theorem noEndByte_of_wireSafe (h : wireSafe c els) : noEndByte c els := by
  intro hmem
  obtain ⟨el, hel, hb⟩ := List.mem_flatMap.mp hmem
  have hsafe := h el hel
  cases el with
  | code b =>
    cases List.mem_singleton.mp hb
    simp [Cfg.isStructural] at hsafe
  | f32 w => exact bEnd_notMem_numeric c.isTag_bFloat hsafe hb
  | u32 w => exact bEnd_notMem_numeric c.isTag_bUint hsafe hb
  | i32 w => exact bEnd_notMem_numeric c.isTag_bInt hsafe hb

/-- R63's wire-safety gives the second condition of R136. -/
theorem noTagCode_of_wireSafe (h : wireSafe c els) : noTagCode c els := by
  intro b hb
  have hsafe : c.isStructural b = false := h (.code b) hb
  simp only [Cfg.isStructural, Bool.or_eq_false_iff] at hsafe
  exact hsafe.2

/-- The two pure functions invert each other where no `Code` holds a tag (R136). -/
theorem decodeSpan_encodeItems (hw : wellTyped c els) (hn : noTagCode c els) :
    decodeSpan c (encodeItems c els) = els := by
  simpa using decodeSpan_encodeItems_append c els [] hw hn

/-- A backlog that is one encoded frame yields its elements and is used up (R95, R136). -/
theorem tryDecode_encodeFrame (hw : wellTyped c els) (he : noEndByte c els) (hn : noTagCode c els) :
    tryDecode c (encodeFrame c els) = ([], some els) := by
  simpa [decodeSpan_encodeItems hw hn] using tryDecode_encodeFrame_append c els [] he

end

/-- FEED of one encoded frame to an empty backlog and TRY_DECODE answer its elements and leave the backlog empty, under
the conditions of R136. -/
theorem execAll_feed_tryDecode {s : State} {els : Message} (hw : wellTyped s.cfg els) (he : noEndByte s.cfg els)
    (hn : noTagCode s.cfg els) (hbl : s.bl = []) (hlen : (encodeFrame s.cfg els).length < s.cfg.ceiling) :
    execAll [.feed (encodeFrame s.cfg els), .tryDecode] s
      = .next { s with sent := s.sent ++ [.done, .decoded (some els)] } := by
  have hfed : feedBacklog s.cfg s.bl (encodeFrame s.cfg els) = encodeFrame s.cfg els := by
    rw [hbl, feedBacklog_of_lt (by simpa using hlen), List.nil_append]
  show Host.Outcome.next (s.feed (encodeFrame s.cfg els)).tryDecode = _
  rw [State.tryDecode, State.feed_cfg, State.feed_bl, hfed, tryDecode_encodeFrame hw he hn, ← hbl]
  simp [State.feed]

/-- Settles O31: a wire-safe sequence meets R136's conditions. -/
theorem wireSafeRoundTrips : Obligations.WireSafeRoundTrips := fun _ _ hw hs hbl hlen =>
  execAll_feed_tryDecode hw (noEndByte_of_wireSafe hs) (noTagCode_of_wireSafe hs) hbl hlen

/-! ### drain -/

/-- drain, with fuel enough, is TRY_DECODE as often as it yields a message and once more (R81). -/
theorem State.drain_eq_execAll : ∀ (fuel : Nat) (s : State), s.bl.length ≤ fuel → ∃ ms : List Message,
    execAll (List.replicate (ms.length + 1) .tryDecode) s = .next (State.drain fuel s)
      ∧ (State.drain fuel s).sent = s.sent ++ ms.map (fun m => .decoded (some m)) ++ [.decoded none] := by
  intro fuel
  induction fuel with
  | zero =>
    intro s h
    have hnil : s.bl = [] := by simpa using h
    exact ⟨[], rfl, by simp [State.drain, hnil]⟩
  | succ fuel ih =>
    intro s h
    unfold State.drain
    cases hd : (Machine.tryDecode s.cfg s.bl).2 with
    | none => exact ⟨[], rfl, by simp [hd]⟩
    | some m =>
      have hl := (tryDecode_length s.cfg s.bl).2 (by simp [hd])
      obtain ⟨ms, hrun, hsent⟩ := ih s.tryDecode (by simp only [State.tryDecode_bl]; omega)
      exact ⟨m :: ms, hrun, by simp [hsent, hd]⟩

/-- drain leaves a backlog of which a further TRY_DECODE answers `None`, and that is all it does (R48, R81). -/
theorem State.drain_tryDecode (s : State) :
    (State.drain s.bl.length s).tryDecode = (State.drain s.bl.length s).answer (.decoded none) := by
  have hcfg : (State.drain s.bl.length s).cfg = s.cfg := by rw [State.drain_frame]
  exact State.tryDecode_of_none (hcfg ▸ State.drain_exhausts s.bl.length s le_rfl)

/-- Settles O7: both by their definition, drain unfolded once by `drain_step`. -/
theorem abbreviationsExpand : Obligations.AbbreviationsExpand := by
  refine ⟨fun s chunk => ⟨s.feed chunk, _, rfl, rfl, rfl⟩, fun s => ⟨s.tryDecode, _, rfl, rfl, ?none, ?some⟩⟩
  case none =>
    intro hnone
    rw [State.drain_step, if_pos (State.tryDecode_sent_iff.mp hnone)]
  case some =>
    intro hsome
    rw [State.drain_step, if_neg (mt State.tryDecode_sent_iff.mpr hsome)]
    rfl

/-- Settles O8: drain as a run of TRY_DECODEs, its frame, and the `None` of one more. -/
theorem drainEmptiesTheBacklogOfFrames : Obligations.DrainEmptiesTheBacklogOfFrames := by
  intro s
  obtain ⟨ms, hrun, hsent⟩ := State.drain_eq_execAll s.bl.length s le_rfl
  refine ⟨State.drain s.bl.length s, ms, rfl, hrun, ?_, congrArg Host.Outcome.next s.drain_tryDecode⟩
  rw [← hsent]
  exact State.drain_frame s.bl.length s

end Sys2Proof.Machine
end

section
/-! PROOFS of the statements about the ports of 30_encoding.md: a placed word is run, the handshakes of the command, the
response and the result, and the operand streams. -/

namespace Sys2Proof.Machine

/-! ### A placed word -/

section
variable {s : State} {i : Instr}

/-- A scan runs the delimiter's instruction at the byte it decodes from (R93, R94). -/
theorem State.scan_run {look : Byte → Fetched} {b : Byte} (hb : s.bl[s.work.cursor]? = some b)
    (hi : decode s.cfg (look b) = .ok i) : s.scan look = .run i s := by
  simp [State.scan, hb, hi]

/-- The span between the delimiters placed is the one placed (R94). -/
theorem State.placeBytes_span (s : State) (start : Byte) (span : List Byte) (after : Byte) (stage : Stage) :
    (s.placeBytes (start :: span ++ [after]) stage 0 (span.length + 1) 0).span = span := by
  simp [State.span, State.placeBytes, slice]

/-- With a command in progress and a quiet edge to come, the step runs the instruction that this edge runs. -/
theorem step_quiet_run {ps : List Pins} (hst : s.stage ≠ .idle) (hedges : s.edges = Pins.quiet :: ps)
    (hrun : ({ s with edges := ps } : State).edge Pins.quiet = .run i { s with edges := ps }) :
    step s = exec i { s with edges := ps } :=
  (step_edge (fun hidle => absurd hidle hst) hedges).trans (congrArg Action.perform hrun)

/-- What the decoder reads from a pattern is run by the next step where the pattern is placed. -/
theorem step_place (s : State) {f : Fetched} (hi : decode s.cfg f = .ok i) : ∃ t : State,
    step (s.place f) = exec i t ∧ t.cfg = s.cfg ∧ t.sent = s.sent ∧ t.script = s.script ∧ t.edges = s.edges := by
  cases f with
  | command op a b =>
    cases hi
    exact ⟨_, step_act rfl rfl rfl, rfl, rfl, rfl, rfl⟩
  | poll chunk =>
    cases hi
    exact ⟨_, step_act rfl rfl rfl, rfl, rfl, rfl, rfl⟩
  | drain =>
    cases hi
    exact ⟨_, step_act rfl rfl rfl, rfl, rfl, rfl, rfl⟩
  | startScan b =>
    refine ⟨_, step_quiet_run Stage.noConfusion rfl ?_, rfl, rfl, rfl, rfl⟩
    exact (State.edge_scanStart rfl rfl).trans (State.scan_run rfl hi)
  | endScan b =>
    refine ⟨_, step_quiet_run Stage.noConfusion rfl ?_, rfl, rfl, rfl, rfl⟩
    exact (State.edge_scanEnd rfl rfl).trans (State.scan_run rfl hi)
  | itemHead span =>
    refine ⟨_, step_quiet_run Stage.noConfusion rfl (State.edge_item rfl rfl ?_), rfl, rfl, rfl, rfl⟩
    exact (congrArg (decodeItem s.cfg) (s.placeBytes_span s.cfg.bStart span s.cfg.bEnd .items)).trans hi
  | record r =>
    cases hi
    exact ⟨_, step_quiet_run Stage.noConfusion rfl (State.edge_record rfl rfl rfl), rfl, rfl, rfl, rfl⟩

end

/-- Every word of the opcode table decodes, under every configuration (R69, R76). -/
theorem decode_fetchedOfTableWord (c : Cfg) (nbits w : Nat) :
    ∃ i, decode c (fetchedOfTableWord c nbits w) = .ok i := by
  unfold fetchedOfTableWord
  split
  · split
    · exact ⟨_, rfl⟩
    · split
      next hb => exact ⟨_, if_pos hb⟩
      next =>
        split
        next hb => exact ⟨_, if_pos hb⟩
        next => exact decodeItem_ok c (BitVec.ofNat 8 w) [0, 0, 0, 0]
  · exact ⟨_, rfl⟩

/-- Settles O16: `step_place`, at the pattern that the table's word is read as. -/
theorem placedWordIsRun : Obligations.PlacedWordIsRun := by
  refine ⟨fun s f i => step_place s, fun nbits w => ?_⟩
  obtain ⟨i, hi⟩ := decode_fetchedOfTableWord Cfg.t0 nbits w
  obtain ⟨t, hstep, hcfg, -⟩ := step_place State.reset hi
  exact ⟨i, t, by simp [decodeTableWord, hi], hstep, hcfg⟩

/-! ### The handshakes -/

/-- What the host takes on an edge that does not reset: the response beat and the result beat, each exactly where it is
offered and the host is ready (R77, R78). -/
def State.takenOn (p : Pins) (s : State) : List Taken :=
  (if p.rspReady then ((s.outputs false).rsp.map fun x => Taken.response x.1 x.2).toList else [])
    ++ (if p.rReady then ((s.outputs false).r.map Taken.result).toList else [])

section
variable {s t : State} {p : Pins}

theorem State.cmdReady_iff (s : State) : (s.outputs false).cmdReady = true ↔ s.stage = .idle := by
  simp [State.outputs]

theorem State.cmdReady_eq_false_iff (s : State) : (s.outputs false).cmdReady = false ↔ s.stage ≠ .idle := by
  simp [State.outputs]

/-- At the response stage the response beat is offered and no result beat. -/
theorem State.takenOn_respond (hst : s.stage = .respond) :
    s.takenOn p = if p.rspReady then [.response s.work.op s.work.rspFlag] else [] := by
  simp [State.takenOn, State.outputs, hst]

/-- At the result stage the first beat left is offered and no response beat. -/
theorem State.takenOn_result (hst : s.stage = .result) :
    s.takenOn p = if p.rReady then (s.work.rBuf.head?.map Taken.result).toList else [] := by
  simp [State.takenOn, State.outputs, hst]

/-- At every other stage nothing is offered. -/
theorem State.takenOn_other (h1 : s.stage ≠ .respond) (h2 : s.stage ≠ .result) : s.takenOn p = [] := by
  simp [State.takenOn, State.outputs, h1, h2]

/-- What the host is given, and which command is in progress, are kept by an edge on which nothing is offered. -/
def KeepsTakenAndOp (s t : State) : Prop := t.taken = s.taken ∧ t.work.op = s.work.op

theorem State.matchPosition_keepsTakenAndOp (s : State) : KeepsTakenAndOp s s.matchPosition := by
  unfold State.matchPosition
  repeat' split
  all_goals exact ⟨rfl, rfl⟩

theorem State.scan_keepsTakenAndOp {look : Byte → Fetched} {mark : Byte} {i : Instr} {no : Reject}
    (hl : ∀ b, decode s.cfg (look b) = if b = mark then .ok i else .error no)
    (hi : i = .startDelim ∨ i = .endDelim) (h : (s.scan look).perform = .next t) : KeepsTakenAndOp s t := by
  rcases State.scan_perform hl h with rfl | hrun | rfl
  · exact ⟨rfl, rfl⟩
  · rcases hi with rfl | rfl <;> cases hrun <;> exact ⟨rfl, rfl⟩
  · exact ⟨rfl, rfl⟩

/-- With a command in progress and nothing offered, an edge gives the host nothing and keeps the opcode (R77). -/
theorem State.edge_keepsTakenAndOp (hr : p.rst = false) (h0 : s.stage ≠ .idle) (h1 : s.stage ≠ .respond)
    (h2 : s.stage ≠ .result) (h : (s.edge p).perform = .next t) : KeepsTakenAndOp s t := by
  cases hst : s.stage with
  | idle => exact absurd hst h0
  | respond => exact absurd hst h1
  | result => exact absurd hst h2
  | operands =>
    rw [State.edge_operands hr hst] at h
    cases h
    exact ⟨rfl, by rw [State.takeOperands_work, State.operandsTaken_frame]⟩
  | append =>
    rw [State.edge_append hr hst] at h
    cases h
    exact ⟨rfl, rfl⟩
  | scanStart => exact State.scan_keepsTakenAndOp (fun _ => rfl) (.inl rfl) (State.edge_scanStart hr hst ▸ h)
  | scanEnd => exact State.scan_keepsTakenAndOp (fun _ => rfl) (.inr rfl) (State.edge_scanEnd hr hst ▸ h)
  | items =>
    rcases State.edge_items_cases hr hst with ⟨-, he⟩ | ⟨i, el, -, -, he⟩ <;> rw [he] at h <;> cases h <;>
      exact ⟨rfl, rfl⟩
  | encoding =>
    cases hp : s.work.aBuf[s.work.pos]? with
    | some r =>
      rw [State.edge_record hr hst hp] at h
      rw [exec_record h]
      exact ⟨rfl, rfl⟩
    | none =>
      rw [State.edge_encoded hr hst hp] at h
      cases h
      exact ⟨rfl, rfl⟩
  | matching =>
    rw [State.edge_matching hr hst] at h
    cases h
    exact s.matchPosition_keepsTakenAndOp

/-- The edge that takes the response beat ends the command or keeps its opcode (R77). -/
theorem State.responseTaken_spec (s : State) :
    s.responseTaken.taken = s.taken ++ [.response s.work.op s.work.rspFlag]
      ∧ (s.responseTaken.stage ≠ .idle → s.responseTaken.work.op = s.work.op) := by
  unfold State.responseTaken
  dsimp only
  split
  · exact ⟨rfl, fun h => absurd rfl h⟩
  · exact ⟨rfl, fun _ => rfl⟩

/-- The edge that takes a result beat takes the first one left, and ends the command or keeps its opcode (R78). -/
theorem State.resultTaken_spec (s : State) :
    s.resultTaken.taken = s.taken ++ (s.work.rBuf.head?.map Taken.result).toList
      ∧ (s.resultTaken.stage ≠ .idle → s.resultTaken.work.op = s.work.op) := by
  unfold State.resultTaken
  split
  next hb => exact ⟨by simp [hb], fun h => absurd rfl h⟩
  next hb => exact ⟨by simp [hb], fun h => absurd rfl h⟩
  next hb => exact ⟨by simp [hb], fun _ => rfl⟩

/-- One edge without reset of a command in progress: the host takes what is offered where it is ready, and the opcode
is kept until the command ends (R77, R78). -/
theorem State.edge_inProgress (hr : p.rst = false) (h0 : s.stage ≠ .idle) (h : (s.edge p).perform = .next t) :
    t.taken = s.taken ++ s.takenOn p ∧ (t.stage ≠ .idle → t.work.op = s.work.op) := by
  by_cases h1 : s.stage = .respond
  · rw [State.edge_respond hr h1] at h
    rw [State.takenOn_respond h1]
    cases h
    split
    · exact s.responseTaken_spec
    · exact ⟨(List.append_nil _).symm, fun _ => rfl⟩
  by_cases h2 : s.stage = .result
  · rw [State.edge_result hr h2] at h
    rw [State.takenOn_result h2]
    cases h
    split
    · exact s.resultTaken_spec
    · exact ⟨(List.append_nil _).symm, fun _ => rfl⟩
  rw [State.takenOn_other h1 h2, List.append_nil]
  obtain ⟨htaken, hop⟩ := State.edge_keepsTakenAndOp hr h0 h1 h2 h
  exact ⟨htaken, fun _ => hop⟩

/-- One edge without reset of an idle machine: the command offered is accepted, if there is one (R77). -/
theorem State.edge_idle_next (hr : p.rst = false) (hst : s.stage = .idle) (h : (s.edge p).perform = .next t) :
    t = if p.cmdValid then s.accept p.cmdOp else s := by
  rw [State.edge_idle hr hst] at h
  cases h
  rfl

/-- A command accepted is in progress (R77). -/
theorem State.accept_stage_ne_idle (op : BitVec 2) (s : State) : (s.accept op).stage ≠ .idle := by
  rw [State.accept_stage]
  split <;> exact Stage.noConfusion

end

/-- Settles O51: the step is an edge, of an idle machine or of a command in progress. -/
theorem handshakesTransferBeats : Obligations.HandshakesTransferBeats := by
  intro s t p edges he hr hscript _ h
  rw [step_edge (fun _ => hscript) he] at h
  rw [List.append_assoc, s.cmdReady_iff, s.cmdReady_eq_false_iff]
  show t.taken = s.taken ++ ({ s with edges := edges } : State).takenOn p ∧ _
  by_cases h0 : s.stage = .idle
  · have ht := State.edge_idle_next (s := { s with edges := edges }) hr h0 h
    have hnone : ({ s with edges := edges } : State).takenOn p = [] := State.takenOn_other (by simp [h0]) (by simp [h0])
    rw [hnone, List.append_nil]
    refine ⟨?_, Iff.rfl, fun _ hv => ?_, fun _ hv => ?_, fun hbusy => absurd h0 hbusy⟩
    · rw [ht]
      split <;> rfl
    · rw [ht, if_pos hv]
      exact ⟨rfl, State.accept_stage_ne_idle _ _⟩
    · rw [ht, hv]
      rfl
  · obtain ⟨htaken, hop⟩ := State.edge_inProgress (s := { s with edges := edges }) hr h0 h
    exact ⟨htaken, Iff.rfl, fun hi => absurd hi h0, fun hi => absurd hi h0, fun _ => hop⟩

/-! ### The operand streams -/

section
variable {s : State} {p : Pins}

/-- Outside the operands stage neither stream is ready (R78). -/
theorem State.not_ready_of_ne_operands (h : s.stage ≠ .operands) : s.aReady = false ∧ s.bReady = false := by
  simp [State.aReady, State.bReady, h]

theorem State.outputs_aReady (s : State) : (s.outputs false).aReady = s.aReady := by simp [State.outputs]

theorem State.outputs_bReady (s : State) : (s.outputs false).bReady = s.bReady := by simp [State.outputs]

theorem State.aReady_iff (hst : s.stage = .operands) : s.aReady = true ↔ s.work.op ≠ 1 ∧ s.work.aDone = false := by
  simp [State.aReady, hst, takesA]

theorem State.bReady_iff (hst : s.stage = .operands) : s.bReady = true ↔ s.work.op = 3 ∧ s.work.bDone = false := by
  simp [State.bReady, hst, takesB]

/-- A command stays with its operands exactly while a stream it needs has not ended (R78). -/
theorem Work.stageAfterOperands_eq_operands_iff (w : Work) :
    w.stageAfterOperands = .operands ↔ (w.op ≠ 1 ∧ w.aDone = false) ∨ (w.op = 3 ∧ w.bDone = false) := by
  have hended : ((!takesA w.op || w.aDone) && (!takesB w.op || w.bDone)) = true
      ↔ ¬((w.op ≠ 1 ∧ w.aDone = false) ∨ (w.op = 3 ∧ w.bDone = false)) := by
    simp only [takesA, takesB]
    cases w.aDone <;> cases w.bDone <;> simp
  unfold Work.stageAfterOperands
  split
  next h =>
    refine iff_of_false ?_ (hended.mp h)
    repeat' split
    all_goals exact Stage.noConfusion
  next h => exact iff_of_true rfl (not_not.mp (mt hended.mpr h))

/-! One beat on a stream, by its kind (R78). -/

section
variable (ceiling blen : Nat) {b : Beat} {w : Work}

theorem Work.takeA_of_null (h : b.null = true) :
    w.takeA ceiling blen b = { w with
      aDone := (b.last && w.aBuf.isEmpty && w.feedCount == 0) || Config.strayNullEnds w.op false b.last w.aBuf } :=
  if_pos h

theorem Work.takeA_of_feed (h : b.null = false) (hop : w.op = 0) :
    w.takeA ceiling blen b = { w.takeFeedByte ceiling blen ⟨b.kind, b.data⟩ with aDone := b.last } := by
  simp [Work.takeA, h, hop]

theorem Work.takeA_of_value (h : b.null = false) (hop : w.op ≠ 0) :
    w.takeA ceiling blen b = { w with aBuf := w.aBuf ++ [⟨b.kind, b.data⟩], aDone := b.last } := by
  simp only [Work.takeA, h, if_neg hop]
  rfl

theorem Work.takeB_of_null (h : b.null = true) :
    w.takeB b
      = { w with bDone := (b.last && w.bBuf.isEmpty) || Config.strayNullEnds w.op true b.last w.bBuf } :=
  if_pos h

theorem Work.takeB_of_value (h : b.null = false) :
    w.takeB b = { w with bBuf := w.bBuf ++ [⟨b.kind, b.data⟩], bDone := b.last } := by
  simp [Work.takeB, h]

end

/-- With no beat transferred on A, its registers are kept. -/
theorem State.operandsTaken_noA (h : p.aValid = false ∨ s.aReady = false) :
    (s.operandsTaken p).aBuf = s.work.aBuf ∧ (s.operandsTaken p).aDone = s.work.aDone
      ∧ (s.operandsTaken p).feedCount = s.work.feedCount ∧ (s.operandsTaken p).feedOver = s.work.feedOver :=
  s.operandsTaken_streamA p (by rcases h with h | h <;> simp [h])

/-- A beat transferred on A is taken (R78). -/
theorem State.operandsTaken_takeA (hv : p.aValid = true) (hr : s.aReady = true) :
    (s.operandsTaken p).aBuf = (s.work.takeA s.cfg.ceiling s.blen p.a).aBuf
      ∧ (s.operandsTaken p).aDone = (s.work.takeA s.cfg.ceiling s.blen p.a).aDone
      ∧ (s.operandsTaken p).feedCount = (s.work.takeA s.cfg.ceiling s.blen p.a).feedCount
      ∧ (s.operandsTaken p).feedOver = (s.work.takeA s.cfg.ceiling s.blen p.a).feedOver :=
  s.operandsTaken_streamA p (by simp [hv, hr])

/-- With no beat transferred on B, its registers are kept. -/
theorem State.operandsTaken_noB (h : p.bValid = false ∨ s.bReady = false) :
    (s.operandsTaken p).bBuf = s.work.bBuf ∧ (s.operandsTaken p).bDone = s.work.bDone :=
  s.operandsTaken_streamB p (by rcases h with h | h <;> simp [h])

/-- A beat transferred on B is taken (R78). -/
theorem State.operandsTaken_takeB (hv : p.bValid = true) (hr : s.bReady = true) :
    (s.operandsTaken p).bBuf = (s.work.takeB p.b).bBuf ∧ (s.operandsTaken p).bDone = (s.work.takeB p.b).bDone :=
  s.operandsTaken_streamB p (by simp [hv, hr])

theorem State.operandsTaken_op (p : Pins) (s : State) : (s.operandsTaken p).op = s.work.op := by
  rw [State.operandsTaken_frame]

/-- The step of an edge that brings operands. -/
theorem step_operands {ps : List Pins} (he : s.edges = p :: ps) (hr : p.rst = false) (hst : s.stage = .operands) :
    step s = .next { s with
      edges := ps, stage := (s.operandsTaken p).stageAfterOperands, work := s.operandsTaken p } := by
  rw [step_edge (fun hidle => absurd (hst.symm.trans hidle) Stage.noConfusion) he,
    State.edge_operands (s := { s with edges := ps }) hr hst]
  rfl

end

/-- Settles O55: the step takes the beats transferred, stream by stream, each by the lemma for its kind of beat. -/
theorem operandStreamsTransferBeats : Obligations.OperandStreamsTransferBeats := by
  simp only [Obligations.OperandStreamsTransferBeats, State.outputs_aReady, State.outputs_bReady]
  refine ⟨fun s => State.not_ready_of_ne_operands, fun s p edges he hr hst => ⟨State.aReady_iff hst,
    State.bReady_iff hst, _, step_operands he hr hst, ?frame, State.operandsTaken_noA, ?valueA, ?nullA,
    State.operandsTaken_noB, ?valueB, ?nullB, ?stage⟩⟩
  case frame =>
    dsimp only
    rw [← s.operandsTaken_frame p]
  case stage =>
    rw [← s.operandsTaken_op p]
    exact (s.operandsTaken p).stageAfterOperands_eq_operands_iff
  case valueA =>
    intro hv hready hnull
    obtain ⟨hbuf, hdone, hcount, hover⟩ := State.operandsTaken_takeA hv hready
    dsimp only
    rw [hbuf, hdone, hcount, hover]
    by_cases hop : s.work.op = 0
    · rw [Work.takeA_of_feed _ _ hnull hop]
      refine ⟨rfl, fun h => absurd hop h, fun _ hf hc => ?_, fun _ hf hc => ?_, fun _ hf => ?_⟩
      · rw [Work.takeFeedByte_of_below _ hf hc]
        exact ⟨rfl, rfl, hf⟩
      · rw [Work.takeFeedByte_of_reaches _ hf hc]
        exact ⟨rfl, rfl, rfl⟩
      · rw [Work.takeFeedByte_of_over _ hf]
        exact ⟨rfl, rfl, hf⟩
    · rw [Work.takeA_of_value _ _ hnull hop]
      exact ⟨rfl, fun _ => ⟨rfl, rfl, rfl⟩, fun h => absurd h hop, fun h => absurd h hop, fun h => absurd h hop⟩
  case nullA =>
    intro hv hready hnull
    obtain ⟨hbuf, hdone, hcount, hover⟩ := State.operandsTaken_takeA hv hready
    dsimp only
    rw [hbuf, hdone, hcount, hover, Work.takeA_of_null _ _ hnull]
    exact ⟨rfl, rfl, rfl, fun hl hb hc => by simp [hl, hb, hc]⟩
  case valueB =>
    intro hv hready hnull
    obtain ⟨hbuf, hdone⟩ := State.operandsTaken_takeB hv hready
    dsimp only
    rw [hbuf, hdone, Work.takeB_of_value hnull]
    exact ⟨rfl, rfl⟩
  case nullB =>
    intro hv hready hnull
    obtain ⟨hbuf, hdone⟩ := State.operandsTaken_takeB hv hready
    dsimp only
    rw [hbuf, hdone, Work.takeB_of_null hnull]
    exact ⟨rfl, fun hl hb => by simp [hl, hb]⟩

end Sys2Proof.Machine
end

section
/-! PROOFS of the statements about the frame buffer (40_frame_buffer.md): what FEED and TRY_DECODE leave, the laws of
chunking, of several frames, of overflow and of a message's length, and the port level's scans, items and records. -/

namespace Sys2Proof.Machine

/-! ### FEED -/

/-- At the ceiling, FEED clears (R92). -/
theorem feedBacklog_of_ge {c : Cfg} {bl chunk : List Byte} (h : c.ceiling ≤ bl.length + chunk.length) :
    feedBacklog c bl chunk = [] := if_pos h

section
variable {s : State}

/-- Short of the ceiling, FEED as one transition appends the chunk (R92). -/
theorem State.feed_of_lt {chunk : List Byte} (h : s.bl.length + chunk.length < s.cfg.ceiling) :
    s.feed chunk = { s with bl := s.bl ++ chunk, sent := s.sent ++ [.done] } := by
  rw [State.feed, feedBacklog_of_lt h]

/-- At the ceiling, it leaves nothing, whatever backlog and chunk held (R92, R102). -/
theorem State.feed_of_ge {chunk : List Byte} (h : s.cfg.ceiling ≤ s.bl.length + chunk.length) :
    s.feed chunk = { s with bl := [], sent := s.sent ++ [.done] } := by
  rw [State.feed, feedBacklog_of_ge h]

/-- A run of FEEDs whose total stays below the ceiling appends every chunk, in order (R100). -/
theorem execAll_feed_of_lt (chunks : List (List Byte)) : ∀ s : State,
    s.bl.length + chunks.flatten.length < s.cfg.ceiling →
    execAll (chunks.map .feed) s
      = .next { s with bl := s.bl ++ chunks.flatten, sent := s.sent ++ List.replicate chunks.length .done } := by
  induction chunks with
  | nil => intro s _; simp [execAll]
  | cons chunk chunks ih =>
    intro s h
    rw [List.flatten_cons, List.length_append] at h
    show execAll (chunks.map .feed) (s.feed chunk) = _
    rw [State.feed_of_lt (by omega), ih]
    · simp [List.replicate_succ]
    · simpa [Nat.add_assoc] using h

/-! ### TRY_DECODE -/

/-- TRY_DECODE as one transition, by its new backlog and its answer (R95). -/
theorem State.tryDecode_of_eq {bl : List Byte} {m : Option Message} (h : Machine.tryDecode s.cfg s.bl = (bl, m)) :
    s.tryDecode = { s with bl := bl, sent := s.sent ++ [.decoded m] } := by
  rw [State.tryDecode, h]

/-- A backlog that begins with an encoded frame yields its elements, under the conditions of R136, and keeps what
follows the frame. -/
theorem State.tryDecode_of_encodeFrame {els : Message} {post : List Byte} (hbl : s.bl = encodeFrame s.cfg els ++ post)
    (hw : wellTyped s.cfg els) (he : noEndByte s.cfg els) (hn : noTagCode s.cfg els) :
    s.tryDecode = { s with bl := post, sent := s.sent ++ [.decoded (some els)] } :=
  State.tryDecode_of_eq (by
    rw [hbl, tryDecode_encodeFrame_append s.cfg els post he, decodeSpan_encodeItems hw hn])

end

/-- From a backlog of encoded frames, TRY_DECODEs answer their elements in order and then nothing, under the conditions
of R136 (R101). -/
theorem execAll_tryDecode_frames (ms : List Message) : ∀ s : State, s.bl = ms.flatMap (encodeFrame s.cfg) →
    (∀ m ∈ ms, wellTyped s.cfg m ∧ noEndByte s.cfg m ∧ noTagCode s.cfg m) →
    execAll (List.replicate (ms.length + 1) .tryDecode) s
      = .next { s with bl := [], sent := s.sent ++ ms.map (fun m => .decoded (some m)) ++ [.decoded none] } := by
  induction ms with
  | nil =>
    intro s hbl _
    show Host.Outcome.next s.tryDecode = _
    rw [State.tryDecode_of_eq (by rw [hbl, List.flatMap_nil, tryDecode_nil])]
    simp
  | cons m ms ih =>
    intro s hbl hms
    obtain ⟨⟨hw, he, hn⟩, hrest⟩ := List.forall_mem_cons.mp hms
    show execAll (List.replicate (ms.length + 1) .tryDecode) s.tryDecode = _
    rw [State.tryDecode_of_encodeFrame hbl hw he hn, ih]
    · simp
    · rfl
    · exact hrest

/-- A message decoded and its two delimiters are no longer than the backlog they stood in (R97). -/
theorem tryDecode_message_length {c : Cfg} {bl : List Byte} {m : Message} (h : (tryDecode c bl).2 = some m) :
    m.length + 2 ≤ bl.length := by
  rcases backlog_forms c bl with hs | ⟨pre, rest, rfl, hpre, hrest⟩ | ⟨pre, span, post, rfl, hpre, hspan⟩
  · rw [tryDecode_no_start c hs] at h
    cases h
  · rw [tryDecode_no_end c hpre hrest] at h
    cases h
  · rw [← List.cons_append, ← List.append_assoc, tryDecode_frame c hpre hspan] at h
    cases h
    have hspan_length := (decodeSpan_length c span).1
    simp only [List.length_append, List.length_cons]
    omega

/-! ### The delimiters and one edge of the ports -/

section
variable {c : Cfg} {b : Byte}

theorem decode_startScan_of_ne (h : b ≠ c.bStart) : decode c (.startScan b) = .error .notStartDelimiter := if_neg h

theorem decode_endScan_of_ne (h : b ≠ c.bEnd) : decode c (.endScan b) = .error .notEndDelimiter := if_neg h

/-- The start scan reads `B_START` and no other byte as START (R93). -/
theorem decode_startScan_iff : decode c (.startScan b) = .ok .startDelim ↔ b = c.bStart := by
  by_cases h : b = c.bStart
  · exact iff_of_true (if_pos h) h
  · exact iff_of_false (by simp [decode_startScan_of_ne h]) h

/-- The end scan reads `B_END` and no other byte as END (R94). -/
theorem decode_endScan_iff : decode c (.endScan b) = .ok .endDelim ↔ b = c.bEnd := by
  by_cases h : b = c.bEnd
  · exact iff_of_true (if_pos h) h
  · exact iff_of_false (by simp [decode_endScan_of_ne h]) h

end

section
variable {s : State} {look : Byte → Fetched}

/-- A scan passes over a byte that does not decode (R93, R94). -/
theorem State.scan_pass {b : Byte} {no : Reject} (hb : s.bl[s.work.cursor]? = some b)
    (hno : decode s.cfg (look b) = .error no) : s.scan look = .settle (.next s.scanOn) := by
  simp [State.scan, hb, hno]

/-- A scan that has used up the backlog answers `None` (R93, R94). -/
theorem State.scan_usedUp (hb : s.bl[s.work.cursor]? = none) :
    s.scan look = .settle (.next (s.respond (.decoded none))) := by
  simp [State.scan, hb]

section
variable {p : Pins} {ps : List Pins} {a : Action} (he : s.edges = p :: ps)
include he

/-- With a command in progress, the step performs what the edge the host drives calls for. -/
theorem step_busy (hst : s.stage ≠ .idle) (ha : ({ s with edges := ps } : State).edge p = a) : step s = a.perform :=
  ha ▸ step_edge (fun hidle => absurd hidle hst) he

theorem step_scanStart (hr : p.rst = false) (hst : s.stage = .scanStart)
    (ha : ({ s with edges := ps } : State).scan .startScan = a) : step s = a.perform :=
  step_busy he (hst.trans_ne nofun) (Eq.trans (State.edge_scanStart hr hst) ha)

theorem step_scanEnd (hr : p.rst = false) (hst : s.stage = .scanEnd)
    (ha : ({ s with edges := ps } : State).scan .endScan = a) : step s = a.perform :=
  step_busy he (hst.trans_ne nofun) (Eq.trans (State.edge_scanEnd hr hst) ha)

end

end

end Sys2Proof.Machine

namespace Sys2Proof

open Machine

/-- Settles O2: the three forms of the backlog, each with TRY_DECODE's own lemma. -/
theorem tryDecodeExtractsEarliestFrame : Obligations.TryDecodeExtractsEarliestFrame := by
  refine fun s => ⟨fun hs => ?noStart, fun pre rest hbl hpre hrest => ?noEnd,
    fun pre span post hbl hpre hspan => ?frame⟩
  case noStart => exact congrArg Host.Outcome.next (State.tryDecode_of_none (by rw [tryDecode_no_start s.cfg hs]))
  case noEnd =>
    exact congrArg Host.Outcome.next (State.tryDecode_of_none (by rw [hbl, tryDecode_no_end s.cfg hpre hrest]))
  case frame =>
    exact congrArg Host.Outcome.next (State.tryDecode_of_eq (by
      rw [hbl, ← List.cons_append, ← List.append_assoc, tryDecode_frame s.cfg hpre hspan]))

/-- Settles O32: a run of FEEDs by induction on the chunks, one FEED by its guard, and the backlog that `None` keeps. -/
theorem chunkingLaw : Obligations.ChunkingLaw := by
  refine ⟨fun s chunks h => ⟨_, _, execAll_feed_of_lt chunks s h, rfl, rfl, feedBacklog_of_lt h⟩, ?none⟩
  case none =>
    intro s t h hsent
    cases h
    exact tryDecode_none s.cfg (State.tryDecode_sent_iff.mp hsent)

/-- Settles O35: FEED appends both frames, which `execAll_tryDecode_frames` takes one by one. -/
theorem multiFrameLaw : Obligations.MultiFrameLaw := by
  intro s m1 m2 hbl hw1 he1 hn1 hw2 he2 hn2 hlen
  show execAll (List.replicate ([m1, m2].length + 1) .tryDecode)
    (s.feed (encodeFrame s.cfg m1 ++ encodeFrame s.cfg m2)) = _
  rw [State.feed_of_lt (by simpa [hbl] using hlen), execAll_tryDecode_frames]
  · simp [hbl]
  · simp [hbl]
  · simp [hw1, he1, hn1, hw2, he2, hn2]

/-- Settles O36: FEED clears at the ceiling, and an empty backlog holds no frame. -/
theorem overflowLaw : Obligations.OverflowLaw := by
  intro s chunk h
  show Host.Outcome.next (s.feed chunk).tryDecode = _
  rw [State.feed_of_ge h, State.tryDecode_of_eq (tryDecode_nil _)]
  simp

/-- Settles O38: the message and its delimiters fit a backlog that is shorter than the ceiling. -/
theorem messageFitsTheCeiling : Obligations.MessageFitsTheCeiling := by
  intro s t m hbl h hsent
  cases h
  have hm := tryDecode_message_length (State.tryDecode_sent_iff.mp hsent)
  have hlt : s.bl.length < s.cfg.ceiling := hbl
  omega

/-- Settles O1: FEED's one transition, its guard written out. -/
theorem feedAppendsOrClears : Obligations.FeedAppendsOrClears := fun _ _ => rfl

/-- Settles O9: each scan's iff, and the registers that each delimiter writes. -/
theorem delimitersMarkTheFrame : Obligations.DelimitersMarkTheFrame :=
  ⟨fun _ _ => decode_startScan_iff, fun _ _ => decode_endScan_iff, fun _ => rfl, fun _ => rfl⟩

/-- Settles O15: `step_busy`, with what the edge calls for at each stage. -/
theorem stepRunsThePortsInstruction : Obligations.StepRunsThePortsInstruction := by
  intro s p edges he hr
  refine ⟨fun b i hst hb hi => ?startDelim, fun b i hst hb hi => ?endDelim, fun b hst hb hne => ?passStart,
    fun b hst hb hne => ?passEnd, fun hst hb => ?usedUp, fun i hst hi => ?item, fun r i hst hp hi => ?record⟩
  case startDelim => exact step_scanStart he hr hst (State.scan_run hb hi)
  case endDelim => exact step_scanEnd he hr hst (State.scan_run hb hi)
  case passStart => exact step_scanStart he hr hst (State.scan_pass hb (decode_startScan_of_ne hne))
  case passEnd => exact step_scanEnd he hr hst (State.scan_pass hb (decode_endScan_of_ne hne))
  case usedUp =>
    rcases hst with hst | hst
    · exact step_scanStart he hr hst (State.scan_usedUp hb)
    · exact step_scanEnd he hr hst (State.scan_usedUp hb)
  case item => exact step_busy he (hst.trans_ne nofun) (State.edge_item hr hst hi)
  case record =>
    cases hi
    exact step_busy he (hst.trans_ne nofun) (State.edge_record hr hst hp)

end Sys2Proof
end

section
/-! PROOFS of the statements about the element codec (41_element_codec.md): DecodeSpan item by item, ENCODE and its
records, the round trip and re-encoding. -/

namespace Sys2Proof

/-- A byte outside DEF is no tag, the tags being in DEF (R9). -/
theorem Cfg.isTag_of_not_isDef (c : Cfg) {b : Byte} (h : c.isDef b = false) : c.isTag b = false :=
  Bool.eq_false_iff.mpr fun ht => by simp [c.isDef_of_isTag ht] at h

end Sys2Proof

namespace Sys2Proof.Machine

/-! ### DecodeSpan -/

section
variable {c : Cfg} {span : List Byte} {i : Instr} {el : Element}

/-- Induction over a span as DecodeSpan walks it: the span that is used up, and an item before the rest of the span. -/
theorem span_induction {motive : List Byte → Prop} (nil : motive [])
    (item : ∀ span i, decodeItem c span = .ok i → motive (span.drop i.itemLength) → motive span)
    (span : List Byte) : motive span := by
  induction hn : span.length using Nat.strong_induction_on generalizing span with
  | _ n ih =>
    subst hn
    cases span with
    | nil => exact nil
    | cons b rest =>
      obtain ⟨i, hi⟩ := decodeItem_ok c b rest
      obtain ⟨hpos, hle⟩ := decodeItem_itemLength hi
      exact item _ i hi (ih _ (by rw [List.length_drop]; omega) _ rfl)

/-- An item puts its element before those of the rest (R120). -/
theorem decodeSpan_eq_cons (hi : decodeItem c span = .ok i) (hel : itemElement c i = some el) :
    decodeSpan c span = el :: decodeSpan c (span.drop i.itemLength) := by
  rw [decodeSpan_item hi, hel]
  rfl

/-- A tag and four bytes after it are the numeric element of their word, before the elements of the rest (R65, R124,
R128, R129). -/
theorem decodeSpan_payload {tag : Byte} (ht : c.isTag tag = true) (b1 b2 b3 b4 : Byte) (rest : List Byte)
    (hel : itemElement c (numericItem c tag (wordOfBytes b1 b2 b3 b4)) = some el) :
    decodeSpan c (tag :: b1 :: b2 :: b3 :: b4 :: rest) = el :: decodeSpan c rest := by
  rw [decodeSpan_eq_cons (decodeItem_numeric c ht b1 b2 b3 b4 rest) hel, numericItem_itemLength]
  rfl

/-- No item emits a `Code` that holds a tag (R122, R123, R125). -/
theorem isTag_of_itemElement {b : Byte} (hi : decodeItem c span = .ok i) (hel : itemElement c i = some (.code b)) :
    c.isTag b = false := by
  cases span with
  | nil => cases hi
  | cons head rest =>
    rcases decodeItem_cases c head rest with ⟨b1, b2, b3, b4, -, -, -, h⟩ | ⟨-, -, h⟩ | ⟨ht, -, h⟩ | ⟨-, -, h⟩ <;>
      rw [h] at hi <;> cases hi
    · rcases numericItem_cases c head (wordOfBytes b1 b2 b3 b4) with h | h | h <;> rw [h] at hel <;> cases hel
    · cases hel; exact c.isTag_bNone
    · cases hel; exact (c.isTag_codeOf head).trans ht
    · cases hel; exact c.isTag_bNone

/-- No `Code` of a decoded message holds a tag. -/
theorem noTagCode_decodeSpan (c : Cfg) (span : List Byte) : noTagCode c (decodeSpan c span) := by
  induction span using span_induction (c := c) with
  | nil => intro b hb; cases hb
  | item span i hi ih =>
    obtain ⟨el, hel, -⟩ := itemElement_of_decodeItem hi
    intro b hb
    rw [decodeSpan_eq_cons hi hel] at hb
    rcases List.mem_cons.mp hb with rfl | hb
    · exact isTag_of_itemElement hi hel
    · exact ih b hb

end

/-- Settles O26: the empty span, a tag with its payload, a truncated item, any other head. -/
theorem decodeSpanItemByItem : Obligations.DecodeSpanItemByItem := by
  refine fun c => ⟨rfl, fun b1 b2 b3 b4 rest w hw => ?numeric,
    fun tag rest ht hr => decodeSpan_trunc c ((c.isTag_codeOf tag).symm.trans ht) hr,
    fun b rest ht => decodeSpan_head c ((c.isTag_codeOf b).symm.trans ht) rest⟩
  case numeric =>
    obtain rfl := eq_wordOfBytes hw
    exact ⟨decodeSpan_payload c.isTag_bFloat b1 b2 b3 b4 rest (by rw [numericItem_bFloat]; rfl),
      decodeSpan_payload c.isTag_bUint b1 b2 b3 b4 rest (by rw [numericItem_bUint]; rfl),
      decodeSpan_payload c.isTag_bInt b1 b2 b3 b4 rest (by rw [numericItem_bInt]; rfl)⟩

/-- Settles O27 by `decodeSpan_length`: an item consumes between one byte and five, and emits one element. -/
theorem messageLengthBounds : Obligations.MessageLengthBounds := decodeSpan_length

/-- Settles O10: the numeric item of each tag, and what each of the three writes. -/
theorem numericItemsEmitTheirWord : Obligations.NumericItemsEmitTheirWord := by
  refine ⟨fun c b1 b2 b3 b4 rest w hw => ?decode, fun s w => ⟨rfl, rfl, rfl⟩⟩
  obtain rfl := eq_wordOfBytes hw
  simp only [decode, decodeItem_numeric, Cfg.isTag_bFloat, Cfg.isTag_bUint, Cfg.isTag_bInt, numericItem_bFloat,
    numericItem_bUint, numericItem_bInt, and_self]

/-- Settles O11: the decoder's row, DecodeSpan on it, and what TRUNC.ITEM writes. -/
theorem truncatedItemEndsTheSpan : Obligations.TruncatedItemEndsTheSpan :=
  ⟨fun c _ _ ht hr => ⟨decodeItem_trunc c ht hr, decodeSpan_trunc c ht hr⟩, fun _ _ _ => rfl⟩

/-- Settles O12: the decoder's two rows, and what each of the two items writes. -/
theorem headBytesEmitOneCode : Obligations.HeadBytesEmitOneCode :=
  ⟨fun c _ rest hd ht => decodeItem_code c hd ht rest, fun c _ rest hd => decodeItem_unknown c hd rest,
    fun _ _ => rfl, fun _ _ => rfl⟩

/-! ### ENCODE -/

section
variable {s : State}

/-- ENCODE of an ill-typed operand is refused (R134). -/
theorem exec_encode_of_illTyped {els : Message} (h : els.all (Element.wellTyped s.cfg) = false) :
    exec (.encode els) s = .refused .illTypedCode := if_neg (by simp [h])

/-- ENC.CODE of a byte outside DEF is refused (R134). -/
theorem exec_encCode_of_not_isDef {b : Byte} (h : s.cfg.isDef b = false) :
    exec (.encCode b) s = .refused .illTypedCode := if_neg (by simp [h])

end

/-- An item is one byte for a `Code` and five for a numeric element (R132, R137 to R139). -/
theorem encodeItem_length (c : Cfg) (el : Element) :
    (encodeItem c el).length = if el.kind = .code then 1 else 5 := by
  cases el <;> rfl

/-- One byte for each `Code` and five for each numeric element (R135). -/
theorem encodeItems_length (c : Cfg) (els : Message) :
    (encodeItems c els).length = els.countP (fun el => decide (el.kind = .code))
      + 5 * els.countP (fun el => decide (el.kind ≠ .code)) := by
  induction els with
  | nil => rfl
  | cons el els ih =>
    rw [encodeItems_cons, List.length_append, encodeItem_length, ih]
    by_cases hk : el.kind = .code
    · simp [hk]; omega
    · simp [hk]; omega

theorem encodeFrame_length (c : Cfg) (els : Message) :
    (encodeFrame c els).length = 2 + (encodeItems c els).length := by
  simp [encodeFrame, frame]
  omega

/-- Settles O3: ENCODE answers the frame of well-typed elements, its items written out. -/
theorem encodeFramesItems : Obligations.EncodeFramesItems := fun _ _ hw =>
  exec_encode_eq_next_iff.mpr ⟨List.all_eq_true.mpr hw, rfl⟩

/-- Settles O4: the element of that byte is ill typed. -/
theorem illTypedCodeIsRefused : Obligations.IllTypedCodeIsRefused := by
  refine ⟨fun s els b hb hd => exec_encode_of_illTyped ?_, fun s b => exec_encCode_of_not_isDef⟩
  exact List.all_eq_false.mpr ⟨.code b, hb, by simp [Element.wellTyped, hd]⟩

/-- Settles O13: what each record appends; ENC.CODE by its guard. -/
theorem recordsEncodeTheirItem : Obligations.RecordsEncodeTheirItem :=
  ⟨fun _ _ hd => exec_encCode_eq_next_iff.mpr ⟨hd, rfl⟩, fun _ _ => ⟨rfl, rfl, rfl⟩⟩

/-- Settles O30: the frame has two delimiters around the items. -/
theorem encodedLength : Obligations.EncodedLength := by
  intro s t els h
  obtain ⟨-, rfl⟩ := exec_encode_eq_next_iff.mp h
  exact ⟨_, rfl, by rw [encodeFrame_length, encodeItems_length, Nat.add_assoc]⟩

/-! ### The round trip -/

section
variable {c : Cfg} {els : Message}

/-- The two pure functions invert each other exactly where no `Code` holds a tag: a decoded message never holds such a
`Code` (R136). -/
theorem decodeSpan_encodeItems_iff (hw : wellTyped c els) :
    decodeSpan c (encodeItems c els) = els ↔ noTagCode c els :=
  ⟨fun h => h ▸ noTagCode_decodeSpan c (encodeItems c els), decodeSpan_encodeItems hw⟩

/-- Where an encoded frame is used up, no byte of its items equals `B_END`: the frame would end there, and its own end
delimiter would be left (R94, R95). -/
theorem noEndByte_of_tryDecode_encodeFrame (h : (tryDecode c (encodeFrame c els)).1 = []) : noEndByte c els := by
  intro hmem
  obtain ⟨pre, post, hsplit, hpre⟩ := List.eq_append_cons_of_mem hmem
  have hframe : encodeFrame c els = [] ++ c.bStart :: pre ++ c.bEnd :: (post ++ [c.bEnd]) := by
    simp [encodeFrame, frame, hsplit]
  rw [hframe, tryDecode_frame c List.not_mem_nil hpre] at h
  simp at h

/-- An encoded frame yields its elements and is used up exactly under R136's two conditions. -/
theorem tryDecode_encodeFrame_iff (hw : wellTyped c els) :
    tryDecode c (encodeFrame c els) = ([], some els) ↔ noEndByte c els ∧ noTagCode c els := by
  refine ⟨fun h => ?_, fun ⟨he, hn⟩ => tryDecode_encodeFrame hw he hn⟩
  have he : noEndByte c els := noEndByte_of_tryDecode_encodeFrame (by rw [h])
  have hdec := tryDecode_encodeFrame_append c els [] he
  rw [List.append_nil, h] at hdec
  exact ⟨he, (decodeSpan_encodeItems_iff hw).mp (by simpa using hdec.symm)⟩

end

/-- Settles O28: the pure functions by what DecodeSpan can emit; on the backlog, the condition by what TRY_DECODE
leaves and answers. -/
theorem roundTripExactly : Obligations.RoundTripExactly := by
  refine ⟨fun c els hw => decodeSpan_encodeItems_iff hw, fun s els hw hbl hlen => ⟨fun h => ?_,
    fun ⟨he, hn⟩ => execAll_feed_tryDecode hw he hn hbl hlen⟩⟩
  have hfeed : (s.feed (encodeFrame s.cfg els)).tryDecode
      = { s with sent := s.sent ++ [.done, .decoded (some els)] } := Host.Outcome.next.inj h
  rw [State.feed_of_lt (by simpa [hbl] using hlen), hbl, List.nil_append] at hfeed
  have hleft : (tryDecode s.cfg (encodeFrame s.cfg els)).1 = [] := congrArg State.bl hfeed
  have hanswer : (tryDecode s.cfg (encodeFrame s.cfg els)).2 = some els := by
    simpa using congrArg State.sent hfeed
  exact (tryDecode_encodeFrame_iff hw).mp (Prod.ext hleft hanswer)

/-! ### Re-encoding -/

section
variable {c : Cfg} {span : List Byte} {i : Instr} {el : Element}

/-- A numeric item's element is encoded as its tag and the word's bytes. -/
theorem encodeItem_numericItem {tag : Byte} {w : Word} (ht : c.isTag tag = true)
    (hel : itemElement c (numericItem c tag w) = some el) : encodeItem c el = tag :: bytesOfWord w := by
  rcases c.isTag_iff.mp ht with rfl | rfl | rfl
  · rw [numericItem_bFloat] at hel; cases hel; rfl
  · rw [numericItem_bUint] at hel; cases hel; rfl
  · rw [numericItem_bInt] at hel; cases hel; rfl

theorem degrades_numericItem (tag : Byte) (w : Word) : degrades (numericItem c tag w) = false := by
  rcases numericItem_cases c tag w with h | h | h <;> rw [h] <;> rfl

/-- An item's element is encoded as the item's own bytes, or the item degraded: its element is the placeholder, and its
head is another byte than `B_NONE` (R140). -/
theorem encodeItem_of_decodeItem (hi : decodeItem c span = .ok i) (hel : itemElement c i = some el) :
    (degrades i = false ∧ encodeItem c el = span.take i.itemLength)
      ∨ (degrades i = true ∧ encodeItem c el = [c.bNone] ∧ span.head? ≠ some c.bNone) := by
  cases span with
  | nil => cases hi
  | cons b rest =>
    rcases decodeItem_cases c b rest with ⟨b1, b2, b3, b4, more, rfl, ht, h⟩ | ⟨-, ht, h⟩ | ⟨-, hd, h⟩ | ⟨-, hd, h⟩ <;>
      rw [h] at hi <;> cases hi
    · refine .inl ⟨degrades_numericItem b _, ?_⟩
      rw [encodeItem_numericItem ht hel, bytesOfWord_wordOfBytes, numericItem_itemLength]
      rfl
    · cases hel
      refine .inr ⟨rfl, rfl, fun hb => ?_⟩
      cases hb
      simp at ht
    · cases hel
      exact .inl ⟨rfl, by rw [c.codeOf_of_isDef hd]; rfl⟩
    · cases hel
      refine .inr ⟨rfl, rfl, fun hb => ?_⟩
      cases hb
      simp at hd

end

/-- Re-encoding gives the span back exactly where no item of its parse degraded (R140). -/
theorem encodeItems_decodeSpan_iff (c : Cfg) (span : List Byte) :
    encodeItems c (decodeSpan c span) = span ↔ ∀ i ∈ parse c span, degrades i = false := by
  induction span using span_induction (c := c) with
  | nil => simp
  | item span i hi ih =>
    obtain ⟨el, hel, -⟩ := itemElement_of_decodeItem hi
    rw [decodeSpan_eq_cons hi hel, parse_item hi, encodeItems_cons, List.forall_mem_cons, ← ih]
    rcases encodeItem_of_decodeItem hi hel with ⟨hok, henc⟩ | ⟨hdeg, henc, hhead⟩
    · rw [henc, and_iff_right hok]
      exact ⟨fun h => List.append_cancel_left (h.trans (List.take_append_drop i.itemLength span).symm),
        fun h => by rw [h, List.take_append_drop]⟩
    · refine iff_of_false (fun h => hhead ?_) (fun h => by simp [h.1] at hdeg)
      rw [← h, henc]
      rfl

/-- Settles O29: the iff by `encodeItems_decodeSpan_iff`, and the two items that degrade. -/
theorem reencodingExactly : Obligations.ReencodingExactly := by
  refine ⟨encodeItems_decodeSpan_iff, fun c b rest hd => ?unknown, fun c tag rest ht hr => ?trunc⟩
  case unknown =>
    rw [decodeSpan_head c (c.isTag_of_not_isDef hd), c.codeOf_of_not_isDef hd]
    rfl
  case trunc =>
    rw [decodeSpan_trunc c ht hr]
    rfl

end Sys2Proof.Machine
end

section
/-! PROOFS of the statements about the matcher (42_matcher.md): MATCH position by position, and as equality of the
sequences of kinds. -/

namespace Sys2Proof.Machine

section
variable {s : State} {a b : Message}

/-- MATCH's answer, and nothing else (R150). -/
theorem exec_matchMsgs (s : State) (a b : Message) :
    exec (.matchMsgs a b) s = .next { s with sent := s.sent ++ [.verdict (matchResult a b)] } := rfl

/-- MATCH answers true exactly for equal sequences of kinds (R153). -/
theorem exec_matchMsgs_eq_true_iff :
    exec (.matchMsgs a b) s = .next { s with sent := s.sent ++ [.verdict true] }
      ↔ a.map Element.kind = b.map Element.kind := by
  rw [← matchResult_iff, exec_matchMsgs]
  simp

/-- MATCH does not distinguish its operands (R153). -/
theorem matchResult_comm (a b : Message) : matchResult a b = matchResult b a :=
  Bool.eq_iff_iff.mpr (by rw [matchResult_iff, matchResult_iff, eq_comm])

/-- Equal sequences of kinds, position by position (R152). -/
theorem map_kind_eq_iff :
    a.map Element.kind = b.map Element.kind ↔ a.length = b.length
      ∧ ∀ (k : Nat) (x y : Element), a[k]? = some x → b[k]? = some y → x.kind = y.kind := by
  simp only [List.ext_getElem_iff, List.length_map, List.getElem_map]
  refine and_congr_right fun _ => ⟨fun h k x y hx hy => ?_, fun h k ha hb =>
    h k a[k] b[k] (List.getElem?_eq_getElem ha) (List.getElem?_eq_getElem hb)⟩
  obtain ⟨ha, rfl⟩ := List.getElem?_eq_some_iff.mp hx
  obtain ⟨hb, rfl⟩ := List.getElem?_eq_some_iff.mp hy
  exact h k ha hb

end

/-- Settles O5: `matchResult` is the answer, and compares the kinds. -/
theorem matchComparesKindsOnly : Obligations.MatchComparesKindsOnly := fun s a b =>
  ⟨matchResult a b, exec_matchMsgs s a b, (matchResult_iff a b).trans map_kind_eq_iff⟩

/-- Settles O6: the answer true is an equality, so the three laws are equality's own. -/
theorem matchIsEquivalence : Obligations.MatchIsEquivalence := by
  refine ⟨fun _ _ _ => exec_matchMsgs_eq_true_iff, fun s a => ?refl, fun s a b => ?symm,
    fun s a b c hab hbc => ?trans⟩
  case refl => exact exec_matchMsgs_eq_true_iff.mpr rfl
  case symm => rw [exec_matchMsgs, exec_matchMsgs, matchResult_comm]
  case trans =>
    exact exec_matchMsgs_eq_true_iff.mpr
      ((exec_matchMsgs_eq_true_iff.mp hab).trans (exec_matchMsgs_eq_true_iff.mp hbc))

end Sys2Proof.Machine
end

section
/-! PROOFS of the statement about exceptions (60_exceptions.md): an act of the host and an edge complete but for an
ill-typed `Code` of an ENCODE, which is the one refusal of a step. -/

namespace Sys2Proof.Machine

section
variable {s : State} {p : Pins}

/-! ### The transaction level -/

/-- ENCODE of records completes, or is refused for an ill-typed one among them (R134). -/
theorem exec_encode_records_outcome (s : State) (a : List Record) :
    (∃ t, exec (.encode (a.map Record.element)) s = .next t)
      ∨ (exec (.encode (a.map Record.element)) s = .refused .illTypedCode
        ∧ ∃ x ∈ a, x.element.wellTyped s.cfg = false) := by
  cases hw : (a.map Record.element).all (Element.wellTyped s.cfg) with
  | true => exact .inl ⟨_, exec_encode_eq_next_iff.mpr ⟨hw, rfl⟩⟩
  | false => exact .inr ⟨exec_encode_of_illTyped hw, by simpa using hw⟩

/-- An act of the host taken whole completes, or is an ENCODE refused for an ill-typed record (R134, R170). -/
theorem State.act_outcome (s : State) (h : HostAct) :
    (∃ t, (s.act h).perform = .next t)
      ∨ ((s.act h).perform = .refused .illTypedCode
        ∧ ∃ a b, h = .command 2 a b ∧ ∃ x ∈ a, x.element.wellTyped s.cfg = false) := by
  cases h with
  | reset => exact .inl ⟨_, rfl⟩
  | poll chunk => exact .inl ⟨_, rfl⟩
  | drain => exact .inl ⟨_, rfl⟩
  | command op a b =>
    rcases op_cases op with rfl | rfl | rfl | rfl
    · exact .inl ⟨_, rfl⟩
    · exact .inl ⟨_, rfl⟩
    · exact (exec_encode_records_outcome s a).imp_right (And.imp_right fun hx => ⟨a, b, rfl, hx⟩)
    · exact .inl ⟨_, rfl⟩

/-! ### One edge -/

/-- The record of an ill-typed element is refused (R134). -/
theorem exec_record_of_illTyped {r : Record} (h : r.element.wellTyped s.cfg = false) :
    exec (decodeRecord r) s = .refused .illTypedCode := by
  unfold decodeRecord
  cases he : r.element with
  | code b => rw [he] at h; exact exec_encCode_of_not_isDef h
  | _ => rw [he] at h; cases h

/-- A scan's edge completes where its delimiter's instruction does (R93, R94). -/
theorem State.scan_completes {look : Byte → Fetched} {mark : Byte} {i : Instr} {no : Reject}
    (hl : ∀ b, decode s.cfg (look b) = if b = mark then .ok i else .error no) (hi : ∃ t, exec i s = .next t) :
    ∃ t, (s.scan look).perform = .next t := by
  rcases State.scan_cases hl with ⟨-, e⟩ | ⟨-, e⟩ | ⟨b, -, -, e⟩ <;> rw [e]
  · exact ⟨_, rfl⟩
  · exact hi
  · exact ⟨_, rfl⟩

/-- Reset, and every stage but the encoding of records, complete (R170, R201). -/
theorem State.edge_completes (h : p.rst = false → s.stage ≠ .encoding) : ∃ t, (s.edge p).perform = .next t := by
  cases hr : p.rst with
  | true => exact ⟨_, congrArg Action.perform (State.edge_reset hr)⟩
  | false =>
    cases hst : s.stage with
    | idle => exact ⟨_, congrArg Action.perform (State.edge_idle hr hst)⟩
    | operands => exact ⟨_, congrArg Action.perform (State.edge_operands hr hst)⟩
    | append => exact ⟨_, congrArg Action.perform (State.edge_append hr hst)⟩
    | scanStart => rw [State.edge_scanStart hr hst]; exact State.scan_completes (fun _ => rfl) ⟨_, rfl⟩
    | scanEnd => rw [State.edge_scanEnd hr hst]; exact State.scan_completes (fun _ => rfl) ⟨_, rfl⟩
    | items =>
      rcases State.edge_items_cases hr hst with ⟨-, e⟩ | ⟨i, el, -, -, e⟩
      · exact ⟨_, congrArg Action.perform e⟩
      · exact ⟨_, e⟩
    | encoding => exact absurd hst (h hr)
    | matching => exact ⟨_, congrArg Action.perform (State.edge_matching hr hst)⟩
    | respond => exact ⟨_, congrArg Action.perform (State.edge_respond hr hst)⟩
    | result => exact ⟨_, congrArg Action.perform (State.edge_result hr hst)⟩

/-- While records are encoded, an edge completes, or is refused for an ill-typed record at the position (R134). -/
theorem State.edge_encoding_outcome (hr : p.rst = false) (hst : s.stage = .encoding) :
    (∃ t, (s.edge p).perform = .next t)
      ∨ ((s.edge p).perform = .refused .illTypedCode
        ∧ ∃ x, s.work.aBuf[s.work.pos]? = some x ∧ x.element.wellTyped s.cfg = false) := by
  cases hp : s.work.aBuf[s.work.pos]? with
  | none => exact .inl ⟨_, congrArg Action.perform (State.edge_encoded hr hst hp)⟩
  | some x =>
    rw [State.edge_record hr hst hp, Action.perform_run]
    cases hw : x.element.wellTyped s.cfg with
    | true => exact .inl ⟨_, exec_record_of_wellTyped hw⟩
    | false => exact .inr ⟨exec_record_of_illTyped hw, x, rfl, hw⟩

/-- An edge completes, or is refused for an ill-typed record at the position of an ENCODE (R134, R170). -/
theorem State.edge_outcome (s : State) (p : Pins) :
    (∃ t, (s.edge p).perform = .next t)
      ∨ ((s.edge p).perform = .refused .illTypedCode
        ∧ s.stage = .encoding ∧ ∃ x, s.work.aBuf[s.work.pos]? = some x ∧ x.element.wellTyped s.cfg = false) := by
  by_cases h : p.rst = false ∧ s.stage = .encoding
  · obtain ⟨hr, hst⟩ := h
    exact (State.edge_encoding_outcome hr hst).imp_right (And.imp_right fun hx => ⟨hst, hx⟩)
  · exact .inl (State.edge_completes fun hr hst => h ⟨hr, hst⟩)

end

/-! ### Start-up -/

/-- Start-up completes, or is refused for an invalid configuration (R204). -/
theorem State.boot_outcome (d : CfgData) :
    (∃ t, State.boot d = .next t) ∨ (State.boot d = .refused .schemaMismatch ∧ d.valid = false) := by
  cases hd : d.valid with
  | true => exact .inl ⟨_, dif_pos hd⟩
  | false => exact .inr ⟨dif_neg (by simp [hd]), rfl⟩

/-- Settles O50: a step is an act of the host or one edge, as the stage and the host's list say, and each completes but
for its one refusal. -/
theorem onlyTwoRefusals : Obligations.OnlyTwoRefusals := by
  refine ⟨fun s => ?step, State.boot_outcome⟩
  by_cases hact : s.stage = .idle ∧ s.script ≠ []
  · obtain ⟨hidle, hne⟩ := hact
    obtain ⟨h, rest, hscript⟩ := List.exists_cons_of_ne_nil hne
    rw [step, State.plan_act hidle hscript]
    refine (State.act_outcome { s with script := rest } h).imp_right (And.imp_right ?_)
    rintro ⟨a, b, rfl, hx⟩
    exact .inl ⟨a, b, rest, hidle, hscript, hx⟩
  · have hnone : s.stage = .idle → s.script = [] := fun hidle => not_not.mp fun hne => hact ⟨hidle, hne⟩
    rw [step, State.plan_edge hnone]
    exact (State.edge_outcome { s with edges := s.edges.tail } (s.edges.headD Pins.quiet)).imp_right
      (And.imp_right .inr)

end Sys2Proof.Machine
end

section
/-! PROOFS of the statements about reset and hazards (70_reset_and_hazards.md): start-up by the validity of the
configuration, and the edge with `rst`. -/

namespace Sys2Proof.Machine

/-! ### Start-up -/

/-- Start-up with the data of a valid configuration completes, in the state after reset (R203). -/
theorem State.boot_toCfgData (c : Cfg) : State.boot c.toCfgData = .next (State.resetWith c) := dif_pos c.ok

/-- Start-up without a proof of validity is refused (R204). -/
theorem State.boot_of_not_valid {d : CfgData} (h : ¬d.valid = true) : State.boot d = .refused .schemaMismatch :=
  dif_neg h

/-- Settles O46: valid data would make a `Cfg`, and each ground for refusing contradicts a law that every `Cfg` has. -/
theorem invalidConfigurationIsRefused : Obligations.InvalidConfigurationIsRefused := by
  refine fun d => ⟨fun ground => State.boot_of_not_valid fun hvalid => ?_, ?_⟩
  · let c : Cfg := ⟨d, hvalid⟩
    rcases ground with hceiling | hequal | ⟨b, hb, hundefined⟩
    · exact absurd c.three_le_ceiling (Nat.not_le.mpr hceiling)
    · exact hequal c.distinguished_nodup
    · exact Bool.false_ne_true (hundefined.symm.trans (c.isDef_of_distinguished hb))
  · rintro c rfl
    exact State.boot_toCfgData c

/-! ### The edge with `rst` -/

/-- Under `rst` nothing is taken and nothing offered, at any stage (R201). -/
theorem State.outputs_rst (s : State) : s.outputs true = ⟨false, false, false, none, none⟩ := by
  simp [State.outputs]

/-- With no command in progress and `rst` released, a command is taken and nothing else is taken or offered (R77). -/
theorem State.outputs_idle {s : State} (h : s.stage = .idle) :
    s.outputs false = ⟨true, false, false, none, none⟩ := by
  simp [State.outputs, State.aReady, State.bReady, h]

/-- An edge with `rst` is reset and nothing else, wherever a command has got to (R201). -/
theorem step_rst {s : State} {p : Pins} {edges : List Pins} (he : s.edges = p :: edges) (hr : p.rst = true)
    (hs : s.stage = .idle → s.script = []) : step s = .next ({ s with edges := edges } : State).applyReset := by
  rw [step_edge hs he, State.edge_reset hr, Action.perform_settle]

/-- Settles O45: the edge is `applyReset`, whose stage is idle. -/
theorem resetAbandonsTheCommand : Obligations.ResetAbandonsTheCommand := fun s _ _ he hr hs =>
  ⟨step_rst he hr hs, s.outputs_rst, State.outputs_idle rfl⟩

end Sys2Proof.Machine
end
